-- ==== Sys2Proof/Word.lean ====
section
/-! DEFINITION. The number domain of the machine (R3). A word (a cell's content, a queue element, an operand, an
intermediate result) is a mathematical integer, `Int`; an address, the instruction pointer and a length are non-negative
integers, `Nat`. Nothing wraps, saturates or truncates. The definitions write `Int` and `Nat` themselves, because the
decision procedures for linear arithmetic know these types by name. -/

namespace Sys2Proof

/-- A program: "a flat sequence of integers" (R61); its i-th integer is the initial content of address i. -/
abbrev Program := List Int

end Sys2Proof
end

