-- ==== Sys2Proof/Config.lean ====
section
/-! DEFINITION. What the spec leaves as a parameter of the machine (R3, R149 and decisions D1, D2, D4), with the
spec's defaults, and the one free value of the machine: what an interactive prompt supplies (R102). -/

namespace Sys2Proof

/-- The parameters of one machine. They never change while it exists; `Config.default` is the hardware of the spec.
DESIGN CHOICE, safe: they are carried by the state so that one `step` serves every instantiation (log entry 3). -/
structure Config where
  /-- `MEM_LIMIT`: the largest memory length, or none (D1). -/
  memLimit : Option Nat := none
  /-- `INQ_LIMIT`: the capacity of the input queue, or none (D1). -/
  inqLimit : Option Nat := none
  /-- `OUTQ_LIMIT`: the capacity of the output queue, or none (D1). -/
  outqLimit : Option Nat := none
  /-- `NEG_WORD_FAULTS`: a negative opcode word faults as UnknownOpcode (D2, U2). -/
  negWordFaults : Bool := false
  /-- `STRICT_OPCODE_WORD`: a non-zero digit of the opcode word that no parameter uses faults (D4, U4). -/
  strictOpcodeWord : Bool := false
deriving DecidableEq, Repr

/-- The spec's own machine: no limits, floored negative words, surplus digits ignored. -/
def Config.default : Config := {}

/-- The value the `n`-th prompt supplies, `PromptValue()` of R102: a free value. It has no body, so nothing can be
proved about it; a claim that mentions it holds for every value (log entry 5). -/
opaque Config.promptValue : Nat → Int

end Sys2Proof
end

