-- ==== Sys2Proof/Syntax.lean ====
section
/-! DEFINITION. The instruction set as syntax: addressing modes (R55), parameter kinds and the ten instructions of the
opcode map (R56). An instruction carries the modes of the parameters it has (R58) and nothing else: its parameter words
are cells of memory that the operand resolver fetches (R74, R75), as in the dispatch of R73. -/

namespace Sys2Proof

/-- The addressing mode of one parameter, a decimal digit of the opcode word (R55). -/
inductive Mode where
  /-- Digit 0: the parameter word is the address of the operand. -/
  | position
  /-- Digit 1: the parameter word is the operand. -/
  | immediate
  /-- Digit 2: the parameter word plus the relative base is the address of the operand. -/
  | relative
  /-- Digits 3 to 9, which the spec does not define; the decoder passes them on, the resolver faults (R55). -/
  | illegal (digit : Nat)
deriving DecidableEq, Repr

/-- The digit an addressing mode is written as (R55). -/
def Mode.digit : Mode → Nat
  | .position => 0
  | .immediate => 1
  | .relative => 2
  | .illegal d => d

/-- "R" and "W" of R56: an operand whose value is used, or one that names the cell to write. -/
inductive ParamKind where
  | read
  | write
deriving DecidableEq, Repr

/-- The ten instructions, one per row of the opcode table (R56, R73). -/
inductive Instr where
  /-- `ADD a, b, -> dest`, opcode 1 (R90). -/
  | add (a b dest : Mode)
  /-- `MUL a, b, -> dest`, opcode 2 (R91). -/
  | multiply (a b dest : Mode)
  /-- `IN -> dest`, opcode 3 (R100). -/
  | input (dest : Mode)
  /-- `OUT a`, opcode 4 (R101). -/
  | output (a : Mode)
  /-- `JT cond, target`, opcode 5 (R110). -/
  | jumpIfTrue (cond target : Mode)
  /-- `JF cond, target`, opcode 6 (R111). -/
  | jumpIfFalse (cond target : Mode)
  /-- `LT a, b, -> dest`, opcode 7 (R120). -/
  | lessThan (a b dest : Mode)
  /-- `EQ a, b, -> dest`, opcode 8 (R121). -/
  | equals (a b dest : Mode)
  /-- `ARB a`, opcode 9 (R130). -/
  | adjustRelativeBase (a : Mode)
  /-- `HLT`, opcode 99 (R135). -/
  | halt
deriving DecidableEq, Repr

/-- The opcode number (R56). -/
def Instr.opcode : Instr → Nat
  | .add _ _ _ => 1
  | .multiply _ _ _ => 2
  | .input _ => 3
  | .output _ => 4
  | .jumpIfTrue _ _ => 5
  | .jumpIfFalse _ _ => 6
  | .lessThan _ _ _ => 7
  | .equals _ _ _ => 8
  | .adjustRelativeBase _ => 9
  | .halt => 99

/-- The parameters in order, each with its kind and mode (R56). -/
def Instr.params : Instr → List (ParamKind × Mode)
  | .add a b d => [(.read, a), (.read, b), (.write, d)]
  | .multiply a b d => [(.read, a), (.read, b), (.write, d)]
  | .input d => [(.write, d)]
  | .output a => [(.read, a)]
  | .jumpIfTrue c t => [(.read, c), (.read, t)]
  | .jumpIfFalse c t => [(.read, c), (.read, t)]
  | .lessThan a b d => [(.read, a), (.read, b), (.write, d)]
  | .equals a b d => [(.read, a), (.read, b), (.write, d)]
  | .adjustRelativeBase a => [(.read, a)]
  | .halt => []

/-- The length in cells: the opcode word and the parameter words (R50). -/
def Instr.length (i : Instr) : Nat := 1 + i.params.length

end Sys2Proof
end

