-- ==== Sys2Proof/Machine/State.lean ====
section
/-! DEFINITION. The architectural state of one core (R10), the fault record (R18, R140), and the state after reset
(R26, R180). Everything the spec gives the machine is here; two fields, `cfg` and `drawn`, are the model's own. -/

namespace Sys2Proof.Machine

/-- The execution status (R16). -/
inductive Status where
  /-- No instruction has been attempted since LOAD. -/
  | ready
  /-- The last instruction attempted completed. -/
  | running
  /-- The last instruction attempted was an Input that found `inq` empty. -/
  | suspended
  /-- Opcode 99 was executed; terminal. -/
  | halted
  /-- A fault occurred; terminal. -/
  | failed
deriving DecidableEq, Repr

/-- The limit that ResourceExhausted names (R149). -/
inductive Limit where
  | memory
  | inputQueue
  | outputQueue
deriving DecidableEq, Repr

/-- The fault kinds (R140). -/
inductive FaultKind where
  | malformedOpcode
  | unknownOpcode
  | invalidWriteMode
  | ranOffEnd
  | invalidMode
  | negativeAddress
  | resourceExhausted
deriving DecidableEq, Repr

/-- A fault kind together with its `info` (R140): what `raise K(info)` names. -/
inductive Raised where
  /-- Never raised (R141, D15); kept so that the list of kinds is complete. -/
  | malformedOpcode
  /-- By the dispatch: the opcode value, 0 to 99 (R142). -/
  | unknownOpcode (opcode : Nat)
  /-- By WriteTarget: the parameter number (R143). -/
  | invalidWriteMode (k : Nat)
  /-- By Fetch: `ip` (R144). -/
  | ranOffEnd (ip : Nat)
  /-- By the operand resolver: parameter number and mode digit (R145). -/
  | invalidMode (k digit : Nat)
  /-- By MemRead, MemWrite and a taken jump: the negative number (R146). -/
  | negativeAddress (a : Int)
  /-- By MemRead, MemWrite and Output when a limit parameter is set: which limit (R149). -/
  | resourceExhausted (limit : Limit)
deriving DecidableEq, Repr

/-- The fault record `cause = (kind, fault_ip, word, info)` (R18, D21); `what` holds the kind with its info. -/
structure Cause where
  what : Raised
  faultIp : Nat
  /-- The opcode word at `faultIp`, or none when that address is at or beyond the end of memory. -/
  word : Option Int
deriving DecidableEq, Repr

/-- One memory cell: its address and its content. -/
abbrev Cell := Nat × Int

/-- Memory (R11, R30): its length and its cells. Only the cells that do not hold 0 are listed, by rising address; an
unlisted address reads as 0, which is what growth makes it (R31) and what it reads as beyond the end.
DESIGN CHOICE, safe (log entry 1): a sequence of integers and this form determine each other. -/
structure Memory where
  len : Nat
  cells : List Cell
deriving DecidableEq, Repr

/-- Memory with no cells. -/
def Memory.empty : Memory := { len := 0, cells := [] }

/-- The canonical form: addresses strictly rising, every listed cell inside the length, none holding the value an
unlisted address reads as. -/
abbrev Memory.wf (m : Memory) : Prop :=
  m.cells.Pairwise (fun c d => c.1 < d.1) ∧ ∀ c ∈ m.cells, c.1 < m.len ∧ c.2 ≠ 0

/-- The whole state of one core: the tuple of R10, and the model's own `cfg` and `drawn`. -/
structure State where
  /-- Memory, code and data (R11). -/
  mem : Memory
  /-- The instruction pointer (R12). -/
  ip : Nat
  /-- The relative base (R13). -/
  rb : Int
  /-- The input queue, front first (R14). -/
  inq : List Int
  /-- The output queue, front first (R15). -/
  outq : List Int
  /-- The execution status (R16). -/
  status : Status
  /-- The fault record (R18). -/
  cause : Option Cause
  /-- Whether an Input with an empty queue prompts instead of suspending (R28). -/
  interactive : Bool
  /-- The parameters of the machine, constant (log entry 3). -/
  cfg : Config
  /-- How many prompt values have been taken: the index of the next free value (log entry 5). -/
  drawn : Nat
deriving DecidableEq, Repr

/-- The host interface's faults: there are none. A fault of this hardware is a state, `Failed` with its record, in
which the machine does nothing more (R150, R153); so no step answers `Outcome.fault`. Safe (log entry 2). -/
inductive Fault where
deriving DecidableEq, Repr

/-- The host interface's refusals. -/
inductive Refusal where
  /-- An instruction without a meaning, named by its mnemonic; raised by an arm of `exec`, and by none of them now.
  Safe. -/
  | notModelled (mnemonic : String)
deriving DecidableEq, Repr

/-- The state after reset with no program: what `LOAD([], false)` leaves (R26, R180). The values of the queues, `status`,
`cause` and `interactive` are the spec's decision D19 (log entry 18); `cfg` and `drawn` are the model's own. -/
def State.reset : State where
  mem := Memory.empty
  ip := 0
  rb := 0
  inq := []
  outq := []
  status := .ready
  cause := none
  interactive := false
  cfg := Config.default
  drawn := 0

end Sys2Proof.Machine
end

