-- ==== Sys2Proof/Machine/Ops.lean ====
section
/-! DEFINITION. The named operations over memory and state: reading and writing a cell with growth (R31 to R34), the four
endings of an instruction (R70), among them fault entry (R150), and the enumerated codes (R17, R140). -/

namespace Sys2Proof.Machine

/-! ### Memory as data -/

/-- The content of address `a` in a list of cells; 0 where it is not listed. -/
def cellAt : List Cell → Nat → Int
  | [], _ => 0
  | c :: cs, a => if c.1 = a then c.2 else cellAt cs a

/-- The cells with the content of `a` replaced by `v`, in canonical form. -/
def setCell : List Cell → Nat → Int → List Cell
  | [], a, v => if v = 0 then [] else [(a, v)]
  | c :: cs, a, v =>
    if a < c.1 then (if v = 0 then c :: cs else (a, v) :: c :: cs)
    else if a = c.1 then (if v = 0 then cs else (a, v) :: cs)
    else c :: setCell cs a v

/-- The value address `a` reads as: `mem[a]`, and 0 at or beyond the end. No side effect (R45). -/
def Memory.get (m : Memory) (a : Nat) : Int := cellAt m.cells a

/-- Growth: memory extended with zeros to length at least `n` (R33). -/
def Memory.grow (m : Memory) (n : Nat) : Memory := { m with len := max m.len n }

/-- Memory with `v` stored at `a`, extended when `a` is at or beyond the end (R32). -/
def Memory.set (m : Memory) (a : Nat) (v : Int) : Memory :=
  { len := max m.len (a + 1), cells := setCell m.cells a v }

/-- Memory whose cells from address `a` upward hold the given integers in order (R61). -/
def Memory.store (m : Memory) : Nat → List Int → Memory
  | _, [] => m
  | a, v :: vs => (m.set a v).store (a + 1) vs

/-- The initial memory of a program: the i-th integer at address i (R61, R180). -/
def Memory.ofProgram (program : Program) : Memory := Memory.empty.store 0 program

/-- The cells of memory in order, `len(mem)` of them: what the host observes (R45, R157). -/
def Memory.toList (m : Memory) : List Int := (List.range m.len).map m.get

/-! ### Memory accesses of an executing instruction -/

/-- Whether a limit admits a size; no limit admits every size (R149). -/
def admits (limit : Option Nat) (n : Nat) : Bool :=
  match limit with
  | none => true
  | some l => decide (n ≤ l)

/-- The same state with another memory. -/
def State.withMem (s : State) (m : Memory) : State := { s with mem := m }

/-- The check every access to address `a` makes: it is not negative (R34, decision D5: log entry 10), and when it lies
beyond the end the limit admits the growth (R149). It gives the address. -/
def State.checkAccess (s : State) (a : Int) : Except Raised Nat :=
  if a < 0 then .error (.negativeAddress a)
  else if s.mem.len ≤ a.toNat && !admits s.cfg.memLimit (a.toNat + 1) then .error (.resourceExhausted .memory)
  else .ok a.toNat

/-- `MemRead(a, 1)` (R31): the value and the state with memory extended to `a + 1`. -/
def State.memRead (s : State) (a : Int) : Except Raised (Int × State) :=
  match s.checkAccess a with
  | .error e => .error e
  | .ok n => .ok (s.mem.get n, s.withMem (s.mem.grow (n + 1)))

/-- `MemWrite(a, 1, v)` (R32): the state with memory extended to `a + 1` and `v` stored at `a`. -/
def State.memWrite (s : State) (a : Int) (v : Int) : Except Raised State :=
  match s.checkAccess a with
  | .error e => .error e
  | .ok n => .ok (s.withMem (s.mem.set n v))

/-! ### The four endings of an instruction (R70) -/

/-- Completion: `ip` takes its new value, once and last, and the status is Running (R77, R27). -/
def State.complete (s : State) (ip : Nat) : State := { s with ip := ip, status := .running }

/-- Halt (R135): nothing but the status changes. -/
def State.halt (s : State) : State := { s with status := .halted }

/-- Suspension (R100, R147): nothing but the status changes. -/
def State.suspend (s : State) : State := { s with status := .suspended }

/-- The opcode word at `ip`, or none when `ip` is at or beyond the end of memory (R18). -/
def State.opcodeWord (s : State) : Option Int :=
  if s.ip < s.mem.len then some (s.mem.get s.ip) else none

/-- Fault entry, `raise K(info)` (R150): applied to the state before the instruction, so that every change the
instruction has made is discarded (R78, decision D8: log entry 13). -/
def State.raise (s : State) (e : Raised) : State :=
  { s with status := .failed, cause := some { what := e, faultIp := s.ip, word := s.opcodeWord } }

/-- The end of an instruction begun in `s`: its final state, or fault entry in `s` (R78, R150). -/
def State.settle (s : State) (r : Except Raised State) : Host.Outcome State Fault Refusal :=
  match r with
  | .ok t => .next t
  | .error e => .next (s.raise e)

/-! ### Numeric codes (R17, R140; decision D14) -/

/-- The numeric code of a status (R17). -/
def Status.code : Status → Nat
  | .ready => 0
  | .running => 1
  | .suspended => 2
  | .halted => 3
  | .failed => 4

/-- The live statuses, in which a step attempts an instruction (R16). -/
def Status.live : Status → Bool
  | .ready => true
  | .running => true
  | .suspended => true
  | .halted => false
  | .failed => false

/-- The numeric code of a fault kind (R140). -/
def FaultKind.code : FaultKind → Nat
  | .malformedOpcode => 1
  | .unknownOpcode => 2
  | .invalidWriteMode => 3
  | .ranOffEnd => 4
  | .invalidMode => 5
  | .negativeAddress => 6
  | .resourceExhausted => 7

/-- The kind of a fault. -/
def Raised.kind : Raised → FaultKind
  | .malformedOpcode => .malformedOpcode
  | .unknownOpcode _ => .unknownOpcode
  | .invalidWriteMode _ => .invalidWriteMode
  | .ranOffEnd _ => .ranOffEnd
  | .invalidMode _ _ => .invalidMode
  | .negativeAddress _ => .negativeAddress
  | .resourceExhausted _ => .resourceExhausted

/-- The code of a core's fault record; 0 means no fault (R140). -/
def State.causeCode (s : State) : Nat :=
  match s.cause with
  | none => 0
  | some c => c.what.kind.code

end Sys2Proof.Machine
end

