-- ==== Sys2Proof/Machine/Operands.lean ====
section
/-! DEFINITION. The operand-mode resolver (R74, R75) and the resolution of the parameters of each instruction shape in
the order of R76. A resolver gives its value and the state with the memory growth of its accesses; `ip` still holds the
address of the instruction's own opcode word (R12). -/

namespace Sys2Proof.Machine

/-- `ReadOperand(k, m)` (R74): the value of read parameter `k`. The parameter word is fetched before the mode is looked
at. InvalidMode is the spec's decision D3 (log entry 9). -/
def State.readOperand (s : State) (k : Nat) (m : Mode) : Except Raised (Int × State) :=
  match s.memRead (s.ip + k) with
  | .error e => .error e
  | .ok (p, s1) =>
    match m with
    | .position => s1.memRead p
    | .immediate => .ok (p, s1)
    | .relative => s1.memRead (s1.rb + p)
    | .illegal d => .error (.invalidMode k d)

/-- `WriteTarget(k, m)` (R75): the address named by write parameter `k`. The target cell itself is not touched. -/
def State.writeTarget (s : State) (k : Nat) (m : Mode) : Except Raised (Int × State) :=
  match s.memRead (s.ip + k) with
  | .error e => .error e
  | .ok (p, s1) =>
    match m with
    | .position => .ok (p, s1)
    | .immediate => .error (.invalidWriteMode k)
    | .relative => .ok (s1.rb + p, s1)
    | .illegal d => .error (.invalidMode k d)

/-- Two read parameters, resolved in ascending order (R76, decision D9: log entry 14). -/
def State.resolveTwo (s : State) (m1 m2 : Mode) : Except Raised (Int × Int × State) :=
  match s.readOperand 1 m1 with
  | .error e => .error e
  | .ok (a, s1) =>
    match s1.readOperand 2 m2 with
    | .error e => .error e
    | .ok (b, s2) => .ok (a, b, s2)

/-- Two read parameters and a write parameter, resolved in ascending order (R76): the two values, the address stored
to, and the state after the resolution. -/
def State.resolveThree (s : State) (m1 m2 m3 : Mode) : Except Raised (Int × Int × Int × State) :=
  match s.resolveTwo m1 m2 with
  | .error e => .error e
  | .ok (a, b, s2) =>
    match s2.writeTarget 3 m3 with
    | .error e => .error e
    | .ok (t, s3) => .ok (a, b, t, s3)

/-- An instruction with two read parameters and one write parameter: it stores `f a b` and advances by its length 4
(R76, R77). All its reads come before its one write (R80). -/
def State.binaryOp (s : State) (f : Int → Int → Int) (m1 m2 m3 : Mode) : Except Raised State :=
  match s.resolveThree m1 m2 m3 with
  | .error e => .error e
  | .ok (a, b, t, s3) =>
    match s3.memWrite t (f a b) with
    | .error e => .error e
    | .ok s4 => .ok (s4.complete (s.ip + 4))

end Sys2Proof.Machine
end

