-- ==== Sys2Proof/Machine/Arithmetic.lean ====
section
/-! DEFINITION. The arithmetic instructions (R90, R91), over the exact integers (R92). -/

namespace Sys2Proof.Machine

/-- Add, opcode 1 (R90). -/
def execAdd (m1 m2 m3 : Mode) (s : State) : Host.Outcome State Fault Refusal :=
  s.settle (s.binaryOp (fun a b => a + b) m1 m2 m3)

/-- Multiply, opcode 2 (R91). -/
def execMultiply (m1 m2 m3 : Mode) (s : State) : Host.Outcome State Fault Refusal :=
  s.settle (s.binaryOp (fun a b => a * b) m1 m2 m3)

end Sys2Proof.Machine
end

