-- ==== Sys2Proof/Machine/BaseAdjustment.lean ====
section
/-! DEFINITION. The base-adjustment instruction (R130), the only one that writes `rb` (R13). -/

namespace Sys2Proof.Machine

/-- AdjustRelativeBase up to fault entry: the operand is read with the old `rb`, then added to it (R130). -/
def State.adjustBaseOp (s : State) (m1 : Mode) : Except Raised State :=
  match s.readOperand 1 m1 with
  | .error e => .error e
  | .ok (a, s1) => .ok (({ s1 with rb := s1.rb + a } : State).complete (s.ip + 2))

/-- AdjustRelativeBase, opcode 9 (R130). -/
def execAdjustRelativeBase (m1 : Mode) (s : State) : Host.Outcome State Fault Refusal :=
  s.settle (s.adjustBaseOp m1)

end Sys2Proof.Machine
end

