-- ==== Sys2Proof/Machine/Flags.lean ====
section
/-! DEFINITION. The hardware has no condition codes (R20). What stands in their place: the 0-or-1 result a comparison
stores (R122), the truth of a jump's condition (R110, R111), and the derived bit `HALTED` (R17, R23). -/

namespace Sys2Proof.Machine

/-- The result of a comparison: exactly 1 or 0 (R122). -/
def truthWord (p : Bool) : Int := if p then 1 else 0

/-- "True" is any non-zero integer, negative included (R110); "false" is exactly 0 (R111). -/
def isTrue (c : Int) : Bool := decide (c ≠ 0)

/-- `HALTED = (status == Halted)`: a view, no storage (R17, R23). -/
def State.haltedFlag (s : State) : Bool := decide (s.status = .halted)

/-- `LEN = len(mem)`: a view, no storage (R23). -/
def State.length (s : State) : Nat := s.mem.len

end Sys2Proof.Machine
end

