-- ==== Sys2Proof/Machine/Comparison.lean ====
section
/-! DEFINITION. The comparison instructions (R120, R121): the whole integers are compared, and the result is stored. -/

namespace Sys2Proof.Machine

/-- LessThan, opcode 7 (R120). -/
def execLessThan (m1 m2 m3 : Mode) (s : State) : Host.Outcome State Fault Refusal :=
  s.settle (s.binaryOp (fun a b => truthWord (decide (a < b))) m1 m2 m3)

/-- Equals, opcode 8 (R121). -/
def execEquals (m1 m2 m3 : Mode) (s : State) : Host.Outcome State Fault Refusal :=
  s.settle (s.binaryOp (fun a b => truthWord (decide (a = b))) m1 m2 m3)

end Sys2Proof.Machine
end

