-- ==== Sys2Proof/Machine/ControlFlow.lean ====
section
/-! DEFINITION. The conditional jumps (R110, R111, R112). -/

namespace Sys2Proof.Machine

/-- A conditional absolute jump of length 3 (R112): both parameters are resolved, taken or not (R76, decision D10: log
entry 15); a taken jump to a negative target faults (decision D6: log entry 11) and any other target is accepted. -/
def State.jumpOp (s : State) (taken : Int → Bool) (m1 m2 : Mode) : Except Raised State :=
  match s.resolveTwo m1 m2 with
  | .error e => .error e
  | .ok (c, t, s2) =>
    if taken c then
      if t < 0 then .error (.negativeAddress t) else .ok (s2.complete t.toNat)
    else .ok (s2.complete (s.ip + 3))

/-- JumpIfTrue, opcode 5 (R110). -/
def execJumpIfTrue (m1 m2 : Mode) (s : State) : Host.Outcome State Fault Refusal :=
  s.settle (s.jumpOp isTrue m1 m2)

/-- JumpIfFalse, opcode 6 (R111). -/
def execJumpIfFalse (m1 m2 : Mode) (s : State) : Host.Outcome State Fault Refusal :=
  s.settle (s.jumpOp (fun c => !isTrue c) m1 m2)

end Sys2Proof.Machine
end

