-- ==== Sys2Proof/Machine/Halt.lean ====
section
/-! DEFINITION. The Halt instruction (R135). -/

namespace Sys2Proof.Machine

/-- Halt, opcode 99 (R135): the status alone changes; `ip` stays on the Halt word (decision D13: log entry 17). -/
def execHalt (s : State) : Host.Outcome State Fault Refusal := .next s.halt

end Sys2Proof.Machine
end

