-- ==== Sys2Proof/Machine/InputOutput.lean ====
section
/-! DEFINITION. The input and output instructions (R100, R101, R102). -/

namespace Sys2Proof.Machine

/-- What an Input does with the value `v` it has obtained: it stores it whole at `dest` and advances by 2; `s0` is the
state with the value taken from its source (R100). -/
def State.inputValue (s0 : State) (m1 : Mode) (v : Int) : Except Raised State :=
  match s0.writeTarget 1 m1 with
  | .error e => .error e
  | .ok (t, s1) =>
    match s1.memWrite t v with
    | .error e => .error e
    | .ok s2 => .ok (s2.complete (s0.ip + 2))

/-- Input, opcode 3 (R100). The queue is tested before the parameter is looked at (decision D11: log entry 16): an empty
queue suspends, or, in interactive mode, a prompt supplies a free value (R102). A faulting Input keeps its queue
element, since fault entry starts from `s` (R78). -/
def execInput (m1 : Mode) (s : State) : Host.Outcome State Fault Refusal :=
  match s.inq with
  | v :: rest => s.settle (({ s with inq := rest } : State).inputValue m1 v)
  | [] =>
    if s.interactive then
      s.settle (({ s with drawn := s.drawn + 1 } : State).inputValue m1 (Config.promptValue s.drawn))
    else .next s.suspend

/-- `outq <- push(outq, v)` (R101); with OUTQ_LIMIT set, a push beyond it faults (R149). -/
def State.pushOut (s : State) (v : Int) : Except Raised State :=
  if admits s.cfg.outqLimit (s.outq.length + 1) then .ok { s with outq := s.outq ++ [v] }
  else .error (.resourceExhausted .outputQueue)

/-- Output, opcode 4, up to fault entry (R101). -/
def State.outputOp (s : State) (m1 : Mode) : Except Raised State :=
  match s.readOperand 1 m1 with
  | .error e => .error e
  | .ok (a, s1) =>
    match s1.pushOut a with
    | .error e => .error e
    | .ok s2 => .ok (s2.complete (s.ip + 2))

/-- Output, opcode 4 (R101). -/
def execOutput (m1 : Mode) (s : State) : Host.Outcome State Fault Refusal :=
  s.settle (s.outputOp m1)

end Sys2Proof.Machine
end

