-- ==== Sys2Proof/Machine/Dispatch.lean ====
section
/-! DEFINITION. The dispatch (R73): one arm per instruction, each one call of its meaning. -/

namespace Sys2Proof.Machine

def exec (i : Instr) (s : State) : Host.Outcome State Fault Refusal :=
  match i with
  | .add m1 m2 m3 => Sys2Proof.Machine.execAdd m1 m2 m3 s
  | .multiply m1 m2 m3 => Sys2Proof.Machine.execMultiply m1 m2 m3 s
  | .input m1 => Sys2Proof.Machine.execInput m1 s
  | .output m1 => Sys2Proof.Machine.execOutput m1 s
  | .jumpIfTrue m1 m2 => Sys2Proof.Machine.execJumpIfTrue m1 m2 s
  | .jumpIfFalse m1 m2 => Sys2Proof.Machine.execJumpIfFalse m1 m2 s
  | .lessThan m1 m2 m3 => Sys2Proof.Machine.execLessThan m1 m2 m3 s
  | .equals m1 m2 m3 => Sys2Proof.Machine.execEquals m1 m2 m3 s
  | .adjustRelativeBase m1 => Sys2Proof.Machine.execAdjustRelativeBase m1 s
  | .halt => Sys2Proof.Machine.execHalt s

end Sys2Proof.Machine
end

