-- ==== Sys2Proof/WellFormed.lean ====
section
/-! DEFINITION. Which terms of the syntax stand for an instruction the decoder can give: a mode is a single decimal
digit, and the digits 0, 1, 2 have their own constructors (R52, R55). -/

namespace Sys2Proof

/-- A mode the decoder can give: the undefined digits are exactly 3 to 9 (R55). -/
def Mode.wellFormed : Mode → Bool
  | .position => true
  | .immediate => true
  | .relative => true
  | .illegal d => decide (3 ≤ d) && decide (d ≤ 9)

/-- Every mode of the instruction is one the decoder can give. -/
def Instr.wellFormed (i : Instr) : Bool := i.params.all fun p => p.2.wellFormed

/-- A mode that does not fault on a parameter of this kind (R55, and "legal" in the opcode table): any of the three
on a read parameter, Position or Relative on a write parameter. -/
def Mode.legalFor : ParamKind → Mode → Bool
  | _, .position => true
  | .read, .immediate => true
  | .write, .immediate => false
  | _, .relative => true
  | _, .illegal _ => false

/-- Every parameter has a legal mode: the instruction raises neither InvalidMode nor InvalidWriteMode. -/
def Instr.legal (i : Instr) : Bool := i.params.all fun p => p.2.legalFor p.1

end Sys2Proof
end

