-- ==== Sys2Proof/Decode.lean ====
section
/-! DEFINITION. The instruction decoder: a total function on the integers (R52), the dispatch by opcode value with
its one rejection, by name (R57, R73), and the encoder that writes the canonical word (R65). -/

namespace Sys2Proof

/-- `dig(w, k)`: the decimal digit of `w` at place `k`, places numbered from 0 at the units (R4). -/
def dig (w : Int) (k : Nat) : Nat := (w / (10 : Int) ^ k % 10).toNat

/-- `w mod 100` with the floored remainder, 0 to 99 for every integer (R4, R52).
DESIGN CHOICE of the spec (D2) for a negative word; unsafe if a real machine reads it otherwise (log entry 8). -/
def opcodeOf (w : Int) : Nat := (w % 100).toNat

/-- What the decoder of R52 gives: the opcode and the three mode digits, not yet checked. -/
structure Fields where
  opcode : Nat
  m1 : Nat
  m2 : Nat
  m3 : Nat
deriving DecidableEq, Repr

/-- `Decode(w)` of R52. All modes are Position below 100, so for negative words too (R53). -/
def decodeFields (w : Int) : Fields :=
  if w < 100 then { opcode := opcodeOf w, m1 := 0, m2 := 0, m3 := 0 }
  else { opcode := opcodeOf w, m1 := dig w 2, m2 := dig w 3, m3 := dig w 4 }

/-- The mode a digit stands for (R55); the digits 3 to 9 are passed on. -/
def Mode.ofDigit : Nat → Mode
  | 0 => .position
  | 1 => .immediate
  | 2 => .relative
  | d => .illegal d

/-- Why the decoder gives no instruction. -/
inductive Reject where
  /-- The opcode value is not in the opcode map (R57). -/
  | unknownOpcode (opcode : Nat)
deriving DecidableEq, Repr

/-- The dispatch of R73: the opcode value alone selects the instruction, which takes the modes of the parameters it
has and ignores the other digits (R58). -/
def select (f : Fields) : Except Reject Instr :=
  match f.opcode with
  | 1 => .ok (.add (.ofDigit f.m1) (.ofDigit f.m2) (.ofDigit f.m3))
  | 2 => .ok (.multiply (.ofDigit f.m1) (.ofDigit f.m2) (.ofDigit f.m3))
  | 3 => .ok (.input (.ofDigit f.m1))
  | 4 => .ok (.output (.ofDigit f.m1))
  | 5 => .ok (.jumpIfTrue (.ofDigit f.m1) (.ofDigit f.m2))
  | 6 => .ok (.jumpIfFalse (.ofDigit f.m1) (.ofDigit f.m2))
  | 7 => .ok (.lessThan (.ofDigit f.m1) (.ofDigit f.m2) (.ofDigit f.m3))
  | 8 => .ok (.equals (.ofDigit f.m1) (.ofDigit f.m2) (.ofDigit f.m3))
  | 9 => .ok (.adjustRelativeBase (.ofDigit f.m1))
  | 99 => .ok .halt
  | n => .error (.unknownOpcode n)

/-- The instruction an opcode word stands for, or the rejection. -/
def decodeWord (w : Int) : Except Reject Instr := select (decodeFields w)

/-- The lowest non-zero decimal digit of `q`, and its number when the units of `q` have the number `k`; `fuel` bounds
the digits looked at. -/
def lowestNonzeroDigit : (fuel k q : Nat) → Option (Nat × Nat)
  | 0, _, _ => none
  | fuel + 1, k, q =>
    if q = 0 then none
    else if q % 10 = 0 then lowestNonzeroDigit fuel (k + 1) (q / 10)
    else some (k, q % 10)

/-- The digit of an opcode word that `STRICT_OPCODE_WORD` objects to (D4): the lowest non-zero digit above the modes of
the parameters the instruction has, as the number of the parameter it would belong to and the digit.
DESIGN CHOICE, unsafe with the option set (log entry 6): the spec names neither which digit is reported nor its parameter
number. The same entry: a word below 100, a negative one included, has no such digit here, since R4 defines `dig` for
`w >= 0` only, so the option never objects to a negative word (with `NEG_WORD_FAULTS` off, -10000001 is accepted). -/
def surplusDigit (i : Instr) (w : Int) : Option (Nat × Nat) :=
  if w < 100 then none
  else
    let q := (w / (10 : Int) ^ (2 + i.params.length)).toNat
    lowestNonzeroDigit q (1 + i.params.length) q

/-- The place value of the mode digit of parameter `k`, counted from 0: places 2, 3, 4 (R51). -/
def modeDigits : (place : Nat) → List (ParamKind × Mode) → Nat
  | _, [] => 0
  | place, p :: ps => p.2.digit * 10 ^ place + modeDigits (place + 1) ps

/-- The canonical opcode word, `opcode + 100*m1 + 1000*m2 + 10000*m3` (R65). -/
def encodeWord (i : Instr) : Int := ((i.opcode + modeDigits 2 i.params : Nat) : Int)

/-- The words of an instruction: its canonical opcode word and its parameter words in order (R35, R50).
The caller gives as many parameter words as the instruction has parameters. -/
def encode (i : Instr) (params : List Int) : List Int := encodeWord i :: params

/-- Decoding a run of words `w :: ws` (R50, R60): the instruction, its parameter words, and what is left. A parameter
word beyond the end of the run is 0, as one beyond the end of memory is (R31). -/
def decodeWords (w : Int) (ws : List Int) : Except Reject (Instr × List Int × List Int) :=
  match decodeWord w with
  | .error r => .error r
  | .ok i =>
    let n := i.params.length
    .ok (i, ws.take n ++ List.replicate (n - ws.length) 0, ws.drop n)

/-- The decoder under the table's numbering of bits. The first word of an instruction is one whole unbounded cell, so
the number whose bits are given IS the opcode word, and the parameter words are further cells, which are zeros.
DESIGN CHOICE, safe (log entry 7): the encoding is decimal, so `nbits` bounds nothing. -/
def decodeTableWord (_nbits w : Nat) : Option Instr := (decodeWord (w : Int)).toOption

end Sys2Proof
end

