-- ==== Sys2Proof/Machine/Fetch.lean ====
section
/-! DEFINITION. Fetching and decoding the instruction at `ip` (R52, R72, R73), with the faults that fetch and dispatch
raise, and where the table's words are stored for the next step. -/

namespace Sys2Proof.Machine

/-- `Fetch()` (R72): the opcode word with a bound check; it never extends memory (C2, decision D7: log entry 12). -/
def State.fetch (s : State) : Except Raised Int :=
  match s.opcodeWord with
  | none => .error (.ranOffEnd s.ip)
  | some w => .ok w

/-- The instruction an opcode word selects on a machine with parameters `cfg` (R52, R73). With the default parameters it
is the decoder's answer; the other two cases are the options `NEG_WORD_FAULTS` (D2) and `STRICT_OPCODE_WORD` (D4).
DESIGN CHOICE, unsafe with the option set (log entry 6): the strict fault is raised here, at dispatch, so before point 3
of R151: an Input with a surplus digit and an empty queue (10003) faults InvalidMode and neither suspends nor prompts. -/
def decodeFor (cfg : Config) (w : Int) : Except Raised Instr :=
  if cfg.negWordFaults && decide (w < 0) then .error (.unknownOpcode (opcodeOf w))
  else
    match decodeWord w with
    | .error (.unknownOpcode n) => .error (.unknownOpcode n)
    | .ok i =>
      if cfg.strictOpcodeWord then
        match surplusDigit i w with
        | some (k, d) => .error (.invalidMode k d)
        | none => .ok i
      else .ok i

/-- The instruction the next step executes, or the fault that fetch or dispatch raises, in that order (R151). -/
def State.nextInstr (s : State) : Except Raised Instr :=
  match s.fetch with
  | .error e => .error e
  | .ok w => decodeFor s.cfg w

/-- The words stored at `ip`: an opcode word and three parameter words of zero, as long as the longest instruction
(R50). -/
def fetchWords (w : Nat) : List Int := [(w : Int), 0, 0, 0]

/-- The status under which a step attempts an instruction: a terminal status becomes Ready, as LOAD makes it (R180). -/
def Status.attempting (st : Status) : Status := if st.live then st else .ready

end Sys2Proof.Machine
end

