-- ==== Sys2Proof/Machine/Step.lean ====
section
/-! DEFINITION. One step (R70), and the placing of an instruction where the next step fetches it. -/

namespace Sys2Proof.Machine

/-- The step function (R70): at most one instruction, and no change at all once Halted or Failed. Each ending of an
instruction sets the status, so the intermediate `status <- Running` of R70 is never seen. -/
def step (s : State) : Host.Outcome State Fault Refusal :=
  if s.status.live then
    match s.nextInstr with
    | .ok i => exec i s
    | .error e => .next (s.raise e)
  else .next s

/-- `s` with the instruction whose opcode word is the number `w` and whose parameter words are 0 stored at `ip`, and a
status in which the next step attempts it. It stands for the LOAD that places a program (log entry 7). -/
def State.withFetchWord (s : State) (_nbits w : Nat) : State :=
  { s with
    mem := s.mem.store s.ip (fetchWords w)
    status := s.status.attempting
    cause := if s.status.live then s.cause else none }

end Sys2Proof.Machine
end

