-- ==== Sys2Proof/Machine/HostInterface.lean ====
section
/-! DEFINITION. The host's atomic transactions on one core (R157, R158) and the queue discipline they keep (R162). A
transaction never acts inside an instruction (R159); the host has no other move. -/

namespace Sys2Proof.Machine

/-- `LOAD(program, interactive)` (R180): the whole state is replaced (R182). The parameters `cfg` belong to the machine and
`drawn` to the prompt source, so they stay (log entries 3 and 5). -/
def State.load (s : State) (program : Program) (interactive : Bool) : State :=
  { State.reset with
    mem := Memory.ofProgram program
    interactive := interactive
    cfg := s.cfg
    drawn := s.drawn }

/-- `PUSH_IN(v)` (R163): appended at the back of `inq`, in any status; nothing else changes. -/
def State.pushIn (s : State) (v : Int) : State := { s with inq := s.inq ++ [v] }

/-- `POP_OUT()` (R164): the front of `outq`, removed, in any status; none, and no change, when it is empty. -/
def State.popOut (s : State) : Option Int × State :=
  match s.outq with
  | [] => (none, s)
  | v :: rest => (some v, { s with outq := rest })

/-- What `OBSERVE()` copies (R157). -/
structure Observation where
  mem : List Int
  len : Nat
  ip : Nat
  rb : Int
  inq : List Int
  outq : List Int
  status : Status
  halted : Bool
  cause : Option Cause
  interactive : Bool
deriving DecidableEq, Repr

/-- `OBSERVE()` (R157): a copy of the state, with no side effect (R45). -/
def State.observe (s : State) : Observation where
  mem := s.mem.toList
  len := s.length
  ip := s.ip
  rb := s.rb
  inq := s.inq
  outq := s.outq
  status := s.status
  halted := s.haltedFlag
  cause := s.cause
  interactive := s.interactive

/-- The loop of `RUN()` (R71): step until the status is not Running. No fuel left is a fact about the model's run and
never a status (R188, U10; log entry 21): the answer `none`. The step's other outcomes do not arise. -/
def runLoop : Nat → State → Option State
  | 0, _ => none
  | fuel + 1, s =>
    match step s with
    | .next t => if t.status = .running then runLoop fuel t else some t
    | .fault f => nomatch f
    | .refused _ => none

/-- `RUN()` (R71): a no-op on a Halted or Failed core; otherwise the loop. -/
def State.run (s : State) (fuel : Nat) : Option State :=
  if s.status.live then runLoop fuel s else some s

/-- The transactions of the host (R157). `run` carries the fuel of the model's run. -/
inductive Transaction where
  | load (program : Program) (interactive : Bool)
  | pushIn (v : Int)
  | popOut
  | run (fuel : Nat)
  | step
  | observe
deriving DecidableEq, Repr

/-- What a transaction returns (R157). -/
inductive Response where
  /-- LOAD and PUSH_IN return nothing. -/
  | done
  /-- POP_OUT: the removed value, or none for `empty`. -/
  | popped (v : Option Int)
  /-- RUN and STEP: the status they ended in. -/
  | status (st : Status)
  /-- OBSERVE: the copy. -/
  | observed (o : Observation)
  /-- The transaction would exceed a limit parameter; nothing changes (R149, D1). -/
  | exceeds (limit : Limit)
  /-- RUN under fuel did not end; nothing is said about the hardware (U10). -/
  | outOfFuel
  /-- A step with no meaning in this model; it does not arise. -/
  | noMeaning (r : Refusal)
deriving DecidableEq, Repr

/-- One transaction: the state after it and what it returns (R157). With INQ_LIMIT set a PUSH_IN past it is refused to
the host (R149); a LOAD longer than MEM_LIMIT is refused in the same way (log entry 4). A RUN that does not end within
its fuel returns the state it began in. -/
def perform (s : State) : Transaction → State × Response
  | .load program interactive =>
    if admits s.cfg.memLimit program.length then (s.load program interactive, .done) else (s, .exceeds .memory)
  | .pushIn v =>
    if admits s.cfg.inqLimit (s.inq.length + 1) then (s.pushIn v, .done) else (s, .exceeds .inputQueue)
  | .popOut => (s.popOut.2, .popped s.popOut.1)
  | .run fuel =>
    match s.run fuel with
    | some t => (t, .status t.status)
    | none => (s, .outOfFuel)
  | .step =>
    match Sys2Proof.Machine.step s with
    | .next t => (t, .status t.status)
    | .fault f => nomatch f
    | .refused r => (s, .noMeaning r)
  | .observe => (s, .observed s.observe)

/-- A sequence of transactions on one core, one at a time (R159): the state after all of them and what each returned. -/
def performAll : State → List Transaction → State × List Response
  | s, [] => (s, [])
  | s, x :: xs =>
    let r := perform s x
    let rest := performAll r.1 xs
    (rest.1, r.2 :: rest.2)

end Sys2Proof.Machine
end

