-- ==== Sys2Proof/Machine/Network.lean ====
section
/-! DEFINITION. The amplifier network and the permutation search (R165 to R172): host software outside the block (R2),
which drives several cores through their transactions only. The cores share nothing (R24): a network is a list of
states, and an activation replaces one of them. Runs are under fuel (log entry 21). -/

namespace Sys2Proof.Machine

/-- Why a network run aborts, with the number of the core concerned. -/
inductive NetworkError where
  /-- A fault in a core (R169). -/
  | coreFailed (core : Nat) (cause : Option Cause)
  /-- An activation took zero outputs, or more than one (R170, U9). -/
  | unexpectedOutputCount (core count : Nat)
  /-- A run, or the rounds, did not end within the fuel: a fact about the model's run. -/
  | outOfFuel (core : Nat)
deriving DecidableEq, Repr

/-- Construction (R165): one core per phase setting, each loaded with its own copy of the program, non-interactive, and
given its phase as first input. -/
def networkCores (program : Program) (phases : List Int) : List State :=
  phases.map fun phase => (State.reset.load program false).pushIn phase

/-- Every element of `outq` taken by POP_OUT (R166): the values in order, and the core without them. -/
def State.takeOutputs (s : State) : List Int × State := (s.outq, { s with outq := [] })

/-- Activation of core `i` with signal `v` (R166): the core afterwards and its one output. -/
def activate (fuel i : Nat) (s : State) (v : Int) : Except NetworkError (State × Int) :=
  match (s.pushIn v).run fuel with
  | none => .error (.outOfFuel i)
  | some t =>
    if t.status = .failed then .error (.coreFailed i t.cause)
    else
      match t.takeOutputs with
      | ([out], u) => .ok (u, out)
      | (outs, _) => .error (.unexpectedOutputCount i outs.length)

/-- One visit of all cores in their declared order, from core number `i` on, with signal `v` (R167, R168): the cores
afterwards, the signal that leaves the last one, and the output the last core made in this round, if it was activated.
A core that is Halted when its turn comes is skipped and the signal passes on unchanged (D22); in the first round no
core is. -/
def networkRound (fuel : Nat) : Nat → List State → Int → Except NetworkError (List State × Int × Option Int)
  | _, [], v => .ok ([], v, none)
  | i, s :: rest, v =>
    let turn : Except NetworkError (State × Int × Option Int) :=
      if s.status = .halted then .ok (s, v, none)
      else
        match activate fuel i s v with
        | .error e => .error e
        | .ok (t, out) => .ok (t, out, some out)
    match turn with
    | .error e => .error e
    | .ok (t, out, made) =>
      match networkRound fuel (i + 1) rest out with
      | .error e => .error e
      | .ok (ts, w, last) => .ok (t :: ts, w, if rest.isEmpty then made else last)

/-- Non-feedback mode (R167): one visit of all cores; the result is the signal that leaves the last one. -/
def runPipeline (fuel : Nat) (program : Program) (phases : List Int) (first : Int) : Except NetworkError Int :=
  match networkRound fuel 0 (networkCores program phases) first with
  | .error e => .error e
  | .ok (_, v, _) => .ok v

/-- The rounds of feedback mode (R168): while any core is not Halted, another round, which begins with the signal the
last one left; the result is the last output of the last core. -/
def feedbackRounds (fuel : Nat) : Nat → List State → Int → Option Int → Except NetworkError (Option Int)
  | 0, _, _, _ => .error (.outOfFuel 0)
  | rounds + 1, cores, v, last =>
    if cores.all fun s => s.haltedFlag then .ok last
    else
      match networkRound fuel 0 cores v with
      | .error e => .error e
      | .ok (ts, w, made) => feedbackRounds fuel rounds ts w (made.or last)

/-- Feedback mode (R168). A network of no cores has no output: none. -/
def runFeedback (fuel rounds : Nat) (program : Program) (phases : List Int) (first : Int) :
    Except NetworkError (Option Int) :=
  feedbackRounds fuel rounds (networkCores program phases) first none

/-- The first signal of a network: 0. PRESUMED, safe: the spec marks it as general knowledge (K1; log entry 22). -/
def firstSignal : Int := 0

/-- Each element of a list with the others, in the order of the list. -/
def picks : List Int → List (Int × List Int)
  | [] => []
  | x :: xs => (x, xs) :: (picks xs).map fun p => (p.1, x :: p.2)

/-- The arrangements of `n` elements of a list, lexicographic when the list ascends (D24). -/
def arrangements : Nat → List Int → List (List Int)
  | 0, _ => [[]]
  | n + 1, xs => (picks xs).flatMap fun p => (arrangements n p.2).map fun q => p.1 :: q

/-- The permutations of a list in lexicographic order of its positions, which for an ascending list is the order of D24
(R172). DESIGN CHOICE for any other list (log entry 26). -/
def permutations (xs : List Int) : List (List Int) := arrangements xs.length xs

/-- The best of two trials: the earlier one wins a tie (R172). -/
def better (best : Option (Int × List Int)) (signal : Int) (phases : List Int) : Option (Int × List Int) :=
  match best with
  | none => some (signal, phases)
  | some b => if b.1 < signal then some (signal, phases) else some b

/-- The search over a list of trials (R172): a fresh network for each, the maximum signal and its first permutation.
DESIGN CHOICE, unsafe (log entry 26): a trial whose network run aborts ends the whole search with its error, and a
network without output is no candidate. R169 has the abort of one network run surface to that network's caller; what
the search, its caller, then does is left open. -/
def searchTrials (trial : List Int → Except NetworkError (Option Int)) :
    List (List Int) → Option (Int × List Int) → Except NetworkError (Option (Int × List Int))
  | [], best => .ok best
  | p :: ps, best =>
    match trial p with
    | .error e => .error e
    | .ok none => searchTrials trial ps best
    | .ok (some v) => searchTrials trial ps (better best v p)

/-- Permutation search without feedback (R172; phases 0 to 4 in the source). -/
def searchPipeline (fuel : Nat) (program : Program) (phases : List Int) : Except NetworkError (Option (Int × List Int)) :=
  searchTrials (fun p => (runPipeline fuel program p firstSignal).map some) (permutations phases) none

/-- Permutation search with feedback (R172; phases 5 to 9 in the source). -/
def searchFeedback (fuel rounds : Nat) (program : Program) (phases : List Int) :
    Except NetworkError (Option (Int × List Int)) :=
  searchTrials (fun p => runFeedback fuel rounds program p firstSignal) (permutations phases) none

end Sys2Proof.Machine
end

