-- ==== Sys2Proof/Safety.lean ====
section
/-! DEFINITION. The terms claims are stated in: what a parameter means as a pure function of the state before the
instruction (no growth threaded), which fault an instruction meets first (R151), what it leaves when it completes or
faults, and the invariants of R25. Nothing here is used by the machine. -/

namespace Sys2Proof.Machine

/-! ### Parameters, read off the state before the instruction -/

/-- The word of parameter `k`, at address `ip + k`; 0 beyond the end (R31, R35). -/
def State.paramWord (s : State) (k : Nat) : Int := s.mem.get (s.ip + k)

/-- The address parameter `k` names under mode `m`, if the mode makes it an address (R59, R74, R75). -/
def State.operandAddress (s : State) (k : Nat) (m : Mode) : Option Int :=
  match m with
  | .position => some (s.paramWord k)
  | .immediate => none
  | .relative => some (s.rb + s.paramWord k)
  | .illegal _ => none

/-- The value of read parameter `k` under mode `m` (R74). -/
def State.operandValue (s : State) (k : Nat) (m : Mode) : Int :=
  match s.operandAddress k m with
  | some a => s.mem.get a.toNat
  | none => s.paramWord k

/-- The memory length that resolving parameter `k` needs: its word, and the cell it names (R33). -/
def State.reach (s : State) (k : Nat) (m : Mode) : Nat :=
  match s.operandAddress k m with
  | some a => max (s.ip + k + 1) (a.toNat + 1)
  | none => s.ip + k + 1

/-- The fault of an access to address `a`, if it has one (R34, R149). -/
def State.accessFault (s : State) (a : Int) : Option Raised :=
  if a < 0 then some (.negativeAddress a)
  else if s.mem.len ≤ a.toNat && !admits s.cfg.memLimit (a.toNat + 1) then some (.resourceExhausted .memory)
  else none

/-- The fault of a mode on a parameter of this kind, if it has one (R143, R145). -/
def modeFault (kind : ParamKind) (k : Nat) (m : Mode) : Option Raised :=
  match kind, m with
  | .write, .immediate => some (.invalidWriteMode k)
  | _, .illegal d => some (.invalidMode k d)
  | _, _ => none

/-- The fault of the access to the cell parameter `k` names, if it names one and the access faults. -/
def State.cellFault (s : State) (k : Nat) (m : Mode) : Option Raised :=
  match s.operandAddress k m with
  | some a => s.accessFault a
  | none => none

/-- The first fault in resolving read parameter `k` (R151, point 4). -/
def State.readFault (s : State) (k : Nat) (m : Mode) : Option Raised :=
  (s.accessFault (s.ip + k)).or ((modeFault .read k m).or (s.cellFault k m))

/-- The first fault in resolving write parameter `k`; its cell is not touched yet (R75). -/
def State.targetFault (s : State) (k : Nat) (m : Mode) : Option Raised :=
  (s.accessFault (s.ip + k)).or (modeFault .write k m)

/-- The first fault of an instruction with two read parameters and one write parameter (R151, points 4 and 6). -/
def State.binaryFault (s : State) (m1 m2 m3 : Mode) : Option Raised :=
  (s.readFault 1 m1).or ((s.readFault 2 m2).or ((s.targetFault 3 m3).or (s.cellFault 3 m3)))

/-- The first fault of a conditional jump, taken when `taken` holds of its condition (R151, points 4 and 5). -/
def State.jumpFault (s : State) (taken : Int → Bool) (m1 m2 : Mode) : Option Raised :=
  (s.readFault 1 m1).or ((s.readFault 2 m2).or
    (if taken (s.operandValue 1 m1) && decide (s.operandValue 2 m2 < 0) then
      some (.negativeAddress (s.operandValue 2 m2)) else none))

/-- Whether an Input in this state suspends (R100, R105). -/
def State.waits (s : State) : Bool := s.inq.isEmpty && !s.interactive

/-- The first fault an instruction meets, in the order of R151; none when it completes, halts or suspends. The order
is the spec's decision D9. -/
def firstFault (i : Instr) (s : State) : Option Raised :=
  match i with
  | .add m1 m2 m3 => s.binaryFault m1 m2 m3
  | .multiply m1 m2 m3 => s.binaryFault m1 m2 m3
  | .input m1 => if s.waits then none else (s.targetFault 1 m1).or (s.cellFault 1 m1)
  | .output m1 =>
    (s.readFault 1 m1).or
      (if admits s.cfg.outqLimit (s.outq.length + 1) then none else some (.resourceExhausted .outputQueue))
  | .jumpIfTrue m1 m2 => s.jumpFault (fun c => decide (c ≠ 0)) m1 m2
  | .jumpIfFalse m1 m2 => s.jumpFault (fun c => decide (c = 0)) m1 m2
  | .lessThan m1 m2 m3 => s.binaryFault m1 m2 m3
  | .equals m1 m2 m3 => s.binaryFault m1 m2 m3
  | .adjustRelativeBase m1 => s.readFault 1 m1
  | .halt => none

/-- What a completing instruction stores in memory: the address and the value; none for one that stores nothing
(R90, R91, R100, R102, R120, R121). -/
def storeOf (i : Instr) (s : State) : Option (Int × Int) :=
  match i with
  | .add m1 m2 m3 => (s.operandAddress 3 m3).map fun d => (d, s.operandValue 1 m1 + s.operandValue 2 m2)
  | .multiply m1 m2 m3 => (s.operandAddress 3 m3).map fun d => (d, s.operandValue 1 m1 * s.operandValue 2 m2)
  | .input m1 => (s.operandAddress 1 m1).map fun d => (d, s.inq.head?.getD (Config.promptValue s.drawn))
  | .output _ => none
  | .jumpIfTrue _ _ => none
  | .jumpIfFalse _ _ => none
  | .lessThan m1 m2 m3 =>
    (s.operandAddress 3 m3).map fun d => (d, if s.operandValue 1 m1 < s.operandValue 2 m2 then 1 else 0)
  | .equals m1 m2 m3 =>
    (s.operandAddress 3 m3).map fun d => (d, if s.operandValue 1 m1 = s.operandValue 2 m2 then 1 else 0)
  | .adjustRelativeBase _ => none
  | .halt => none

/-- The ten opcode values of the opcode map (R56). -/
def knownOpcodes : List Nat := [1, 2, 3, 4, 5, 6, 7, 8, 9, 99]

/-! ### What an instruction leaves -/

/-- `t` is `s` with `v` stored at address `d`, memory extended to at least `n` cells, `ip` moved and status Running;
every other cell reads as before and nothing else differs. -/
def StoresAndAdvances (s t : State) (d : Int) (v : Int) (n ip : Nat) : Prop :=
  t = { s with mem := t.mem, ip := ip, status := .running } ∧
  t.mem.len = max s.mem.len n ∧
  ∀ x : Nat, t.mem.get x = if (x : Int) = d then v else s.mem.get x

/-- `m` is the memory of `s` extended to at least `n` cells: every cell reads as before. -/
def OnlyExtends (s : State) (m : Memory) (n : Nat) : Prop :=
  m.len = max s.mem.len n ∧ ∀ x : Nat, m.get x = s.mem.get x

/-- `t` is `s` after fault entry with `e` (R150): Failed, with the record of R18, and nothing else different. It says
nothing about the length of a Failed core's memory, on which no claim may depend (U15); every cell reads as before. -/
def FailedWith (s t : State) (e : Raised) : Prop :=
  t = { s with
        mem := t.mem
        status := .failed
        cause := some { what := e, faultIp := s.ip, word := s.opcodeWord } } ∧
  ∀ x : Nat, t.mem.get x = s.mem.get x

/-! ### Invariants -/

/-- What holds of every state a core can be in: the clauses of R25 that concern one state, the form of the fault record
(R18, R141), the canonical form of memory, and the limits, where they are set (R149). `ip >= 0` and the zeros of growth
hold by the types. -/
structure State.Inv (s : State) : Prop where
  /-- Memory is in its canonical form. -/
  memCanonical : s.mem.wf
  /-- R25 (d): there is a fault record exactly when the status is Failed. -/
  causeExactlyWhenFailed : s.cause ≠ none ↔ s.status = .failed
  /-- R18: the record names the current `ip` and the opcode word there; MalformedOpcode is never raised (R141). -/
  causeDescribesIp : ∀ c, s.cause = some c →
    c.faultIp = s.ip ∧ c.word = s.opcodeWord ∧ c.what ≠ .malformedOpcode
  /-- R25 (f): a Suspended core addresses an Input and is not interactive. -/
  suspendedAtInput : s.status = .suspended →
    s.ip < s.mem.len ∧ s.mem.get s.ip % 100 = 3 ∧ s.interactive = false
  /-- MEM_LIMIT, where it is set (R149). -/
  withinMemLimit : admits s.cfg.memLimit s.mem.len = true
  /-- INQ_LIMIT, where it is set (R149). -/
  withinInqLimit : admits s.cfg.inqLimit s.inq.length = true
  /-- OUTQ_LIMIT, where it is set (R149). -/
  withinOutqLimit : admits s.cfg.outqLimit s.outq.length = true

/-- A transaction other than LOAD (R136, R153). -/
def Transaction.isLoad : Transaction → Bool
  | .load _ _ => true
  | _ => false

/-- `t` is reached from `s` by one step, or by more, each but the last leaving Running, the last not (R71). -/
inductive RunsTo : State → State → Prop where
  /-- The step that ends the run. -/
  | last {s t : State} : step s = .next t → t.status ≠ .running → RunsTo s t
  /-- A step after which the run goes on. -/
  | more {s t u : State} : step s = .next t → t.status = .running → RunsTo t u → RunsTo s u

end Sys2Proof.Machine
end

