-- ==== Sys2Proof/Certificates/Slice0/Obligations.lean ====
section
/-! DEFINITION. The statements for the provers, one definition each; each docstring says which sentence or section of the
spec it formalises. They are listed in OBLIGATIONS.json. -/

open Sys2Proof Sys2Proof.Machine

/-- One opcode word per instruction, written out from the spec, decodes to that instruction with its modes; 30004 is
Output in Position mode, 301 passes the undefined mode digit on, 45 is an unknown opcode, and -1 is Halt (the
floored remainder is the spec's own decision D2, ignoring surplus digits its decision D4). [95_test_vectors.md
section 2.1 (DEC1 to DEC28); 30_encoding.md section 2 (R52); 92_eei_decisions.md D2 (log entry 8);
92_eei_decisions.md D4 (log entry 9)] -/
def Obligations.SampleWordsDecodeAsTheSpecSays : Prop :=
  decodeWord 22201 = .ok (.add .relative .relative .relative) ∧
  decodeWord 1002 = .ok (.multiply .position .immediate .position) ∧
  decodeWord 203 = .ok (.input .relative) ∧
  decodeWord 204 = .ok (.output .relative) ∧
  decodeWord 1105 = .ok (.jumpIfTrue .immediate .immediate) ∧
  decodeWord 2206 = .ok (.jumpIfFalse .relative .relative) ∧
  decodeWord 21107 = .ok (.lessThan .immediate .immediate .relative) ∧
  decodeWord 2208 = .ok (.equals .relative .relative .position) ∧
  decodeWord 109 = .ok (.adjustRelativeBase .immediate) ∧
  decodeWord 11199 = .ok .halt ∧
  decodeWord 30004 = .ok (.output .position) ∧
  decodeWord 301 = .ok (.add (.illegal 3) .position .position) ∧
  decodeWord 12345 = .error (.unknownOpcode 45) ∧
  decodeWord (-1) = .ok .halt

/-- For every well-formed instruction i, with every mode digit the encoding admits, decodeWord (encodeWord i) is i.
[30_encoding.md section 3 (R65); 30_encoding.md section 2 (R52)] -/
def Obligations.DecodeOfEncodeIsIdentity : Prop :=
  ∀ i : Instr, i.wellFormed = true → decodeWord (encodeWord i) = .ok i

/-- For every well-formed instruction i, parameter words ps as many as it has parameters and any further words rest,
decoding encode i ps followed by rest gives i, ps and rest: the length is learnt from the opcode alone.
[30_encoding.md section 1 (R50, R60); 30_encoding.md section 3 (R65)] -/
def Obligations.WordsDecodeBackToTheInstruction : Prop :=
  ∀ (i : Instr) (ps rest : List Int), i.wellFormed = true → ps.length = i.params.length →
    ∃ w ws, encode i ps ++ rest = w :: ws ∧ decodeWords w ws = .ok (i, ps, rest)

/-- For every integer w, if decodeWord w gives i then i is well formed and its opcode is w mod 100. The floored
remainder of a negative word is the spec's decision D2 (log entry 8). [30_encoding.md section 2 (R52, R55);
40_execution_cycle_and_operands.md section 2 (R73); 92_eei_decisions.md D2 (log entry 8)] -/
def Obligations.DecodedInstructionsAreWellFormed : Prop :=
  ∀ (w : Int) (i : Instr), decodeWord w = .ok i → i.wellFormed = true ∧ i.opcode = opcodeOf w

/-- For every integer w: if w mod 100 is one of 1 to 9 and 99 the decoder gives an instruction; otherwise it rejects
with UnknownOpcode and the opcode value. That a word with a known opcode decodes even when it has non-zero digits no
parameter uses, or digits at place 5 and above, is the spec's own decision D4, a choice that log entry 9 calls
unsafe. The floored remainder of a negative word is its decision D2 (log entry 8). [30_encoding.md section 3 (R56,
R57); 30_encoding.md section 2 (R54, R58); 92_eei_decisions.md D2 (log entry 8); 92_eei_decisions.md D4 (log entry
9)] -/
def Obligations.OnlyTheTenOpcodesDecode : Prop :=
  ∀ w : Int,
    (opcodeOf w ∈ knownOpcodes → ∃ i, decodeWord w = .ok i) ∧
    (opcodeOf w ∉ knownOpcodes → decodeWord w = .error (.unknownOpcode (opcodeOf w)))

/-- For every non-negative w and every natural n, w + 100000 * n decodes as w does; that surplus digits are ignored is
the spec's own decision D4. [30_encoding.md section 2 (R54); 92_eei_decisions.md D4 (log entry 9)] -/
def Obligations.HighDigitsAreIgnored : Prop :=
  ∀ (w : Int) (n : Nat), 0 ≤ w → decodeWord (w + 100000 * n) = decodeWord w

/-- For every negative w, w decodes as w mod 100 does, so with all modes Position; the floored convention is the spec's
own decision D2. [30_encoding.md section 2 (R53); 92_eei_decisions.md D2 (log entry 8)] -/
def Obligations.NegativeWordDecodesAsItsRemainder : Prop :=
  ∀ w : Int, w < 0 → decodeWord w = decodeWord (w % 100)

/-- For every non-negative w that decodes to i, the canonical word of i decodes to i too, is non-negative and is at most
w. That words with unused digits decode to i as well is the spec's decision D4 (log entry 9). [30_encoding.md
section 3 (R65); 92_eei_decisions.md D4 (log entry 9)] -/
def Obligations.CanonicalWordIsTheSmallest : Prop :=
  ∀ (w : Int) (i : Instr), 0 ≤ w → decodeWord w = .ok i →
    decodeWord (encodeWord i) = .ok i ∧ 0 ≤ encodeWord i ∧ encodeWord i ≤ w

/-- On a machine with NEG_WORD_FAULTS and STRICT_OPCODE_WORD set, the dispatch gives i for the word w exactly when i is
well formed and w is its canonical word. The options are the spec's, their reported digit the model's choice.
[92_eei_decisions.md D2 and D4 (log entries 6, 8 and 9); 93_implementation_defined.md U2 and U4] -/
def Obligations.StrictMachineAcceptsOnlyCanonicalWords : Prop :=
  ∀ (cfg : Config) (w : Int) (i : Instr), cfg.negWordFaults = true → cfg.strictOpcodeWord = true →
    (decodeFor cfg w = .ok i ↔ i.wellFormed = true ∧ w = encodeWord i)

/-- If the status is live, the opcode word at ip is w, and w decodes to i (on a machine with neither strict option),
then the step is exec i on the same state; with the options, the same with the dispatch decodeFor of that machine
(the spec's alternatives in D2 and D4, log entries 3, 6, 8 and 9). The step adds nothing around exec.
[40_execution_cycle_and_operands.md section 1 (R70); 40_execution_cycle_and_operands.md section 2 (R72, R73)] -/
def Obligations.StepRunsTheDecodedInstruction : Prop :=
  (∀ (s : State) (w : Int) (i : Instr), s.status.live = true → s.opcodeWord = some w →
    s.cfg.negWordFaults = false → s.cfg.strictOpcodeWord = false → decodeWord w = .ok i → step s = exec i s) ∧
  (∀ (s : State) (w : Int) (i : Instr), s.status.live = true → s.opcodeWord = some w →
    decodeFor s.cfg w = .ok i → step s = exec i s)

/-- For every state, step answers a next state, and so does exec for every instruction: a fault of the hardware is a
state (Failed), never a stop of the model (log entry 2). [40_execution_cycle_and_operands.md section 1 (R70);
60_exceptions.md section 2 (R150)] -/
def Obligations.EveryStepAnswersANextState : Prop :=
  (∀ s : State, ∃ t, step s = .next t) ∧ (∀ (i : Instr) (s : State), ∃ t, exec i s = .next t)

/-- If a live core's opcode word w at ip has w mod 100 not in 1 to 9 or 99, the step enters Failed with the record
(UnknownOpcode, ip, w, w mod 100); memory, its length included, and every other component are unchanged, because no
parameter is fetched. The word may be negative, and its opcode, which the record holds, is then the floored
remainder: the spec's own decision D2, a choice that log entry 8 calls unsafe. [60_exceptions.md section 1 (R142);
30_encoding.md section 2 (R53); 92_eei_decisions.md D2 (log entry 8)] -/
def Obligations.UnknownOpcodeFails : Prop :=
  ∀ (s : State) (w : Int), s.status.live = true → s.opcodeWord = some w → opcodeOf w ∉ knownOpcodes →
    ∃ t, step s = .next t ∧ FailedWith s t (.unknownOpcode (opcodeOf w)) ∧ t.mem = s.mem ∧
      t.cause = some { what := .unknownOpcode (opcodeOf w), faultIp := s.ip, word := some w }

/-- If a live core has ip at or beyond the length of memory, the step enters Failed with the record (RanOffEnd, ip,
none, ip), memory unchanged; the name and the exact test are the spec's decision D7. [60_exceptions.md section 1
(R144); 40_execution_cycle_and_operands.md section 2 (R72); 92_eei_decisions.md D7 (log entry 12)] -/
def Obligations.RunningOffTheEndFails : Prop :=
  ∀ s : State, s.status.live = true → s.mem.len ≤ s.ip →
    ∃ t, step s = .next t ∧ FailedWith s t (.ranOffEnd s.ip) ∧ t.mem = s.mem ∧
      t.cause = some { what := .ranOffEnd s.ip, faultIp := s.ip, word := none }

/-- In canonical memory: a read of a >= 0 (inside memory, or growing it within the limit) gives the value at a, which is
0 at or beyond the end; the length becomes the maximum of the old one and a + 1, every cell reads as before and
nothing else changes. A negative a raises NegativeAddress(a), the spec's decision D5. [20_memory.md section 2 (R31,
R33, R34); 92_eei_decisions.md D5 (log entry 10)] -/
def Obligations.ReadGivesTheCellAndExtendsMemory : Prop :=
  ∀ (s : State) (a : Int), s.mem.wf →
    (0 ≤ a → (a.toNat < s.mem.len ∨ admits s.cfg.memLimit (a.toNat + 1) = true) →
      ∃ v t, s.memRead a = .ok (v, t) ∧ v = s.mem.get a.toNat ∧ (s.mem.len ≤ a.toNat → v = 0) ∧
        t = { s with mem := t.mem } ∧ OnlyExtends s t.mem (a.toNat + 1)) ∧
    (a < 0 → s.memRead a = .error (.negativeAddress a))

/-- In canonical memory: a write of v at a >= 0 (inside memory, or growing it within the limit) makes a read as v,
leaves every other cell, makes the length the maximum of the old one and a + 1, and keeps memory canonical. A
negative a raises NegativeAddress(a), the spec's decision D5. [20_memory.md section 2 (R32, R33, R34);
92_eei_decisions.md D5 (log entry 10)] -/
def Obligations.WriteStoresTheValueAndExtendsMemory : Prop :=
  ∀ (s : State) (a : Int) (v : Int), s.mem.wf →
    (0 ≤ a → (a.toNat < s.mem.len ∨ admits s.cfg.memLimit (a.toNat + 1) = true) →
      ∃ t, s.memWrite a v = .ok t ∧ t = { s with mem := t.mem } ∧ t.mem.len = max s.mem.len (a.toNat + 1) ∧
        t.mem.wf ∧ ∀ x : Nat, t.mem.get x = if x = a.toNat then v else s.mem.get x) ∧
    (a < 0 → s.memWrite a v = .error (.negativeAddress a))

/-- With MEM_LIMIT l set, an access to a >= 0 beyond the end with a + 1 > l raises ResourceExhausted(memory) on a read
and on a write; with OUTQ_LIMIT l set, an Output whose operand resolves and whose queue is full fails with
ResourceExhausted(outputQueue); with INQ_LIMIT l set, PUSH_IN to a full queue is refused and changes nothing. The
limits are the spec's decision D1. [60_exceptions.md section 1 (R149); 92_eei_decisions.md D1 (log entry 3)] -/
def Obligations.LimitsFaultInsteadOfWrapping : Prop :=
  (∀ (s : State) (a : Int) (v : Int) (l : Nat), s.cfg.memLimit = some l → 0 ≤ a → s.mem.len ≤ a.toNat →
    l < a.toNat + 1 →
      s.memRead a = .error (.resourceExhausted .memory) ∧ s.memWrite a v = .error (.resourceExhausted .memory)) ∧
  (∀ (s : State) (m1 : Mode) (l : Nat), s.cfg.outqLimit = some l → l ≤ s.outq.length → s.readFault 1 m1 = none →
    ∃ t, exec (.output m1) s = .next t ∧ FailedWith s t (.resourceExhausted .outputQueue)) ∧
  (∀ (s : State) (v : Int) (l : Nat), s.cfg.inqLimit = some l → l ≤ s.inq.length →
    perform s (.pushIn v) = (s, .exceeds .inputQueue))

/-- In canonical memory, when no parameter faults and parameter 3 names address d, the instruction completes: it stores
the exact sum of the two operand values at d, the operands read from the state before, memory long enough for every
access, ip + 4, status Running; every other cell reads as before and nothing else changes. [41_arithmetic.md (R90,
R92); 40_execution_cycle_and_operands.md sections 3 and 4 (R74, R75, R76, R77, R80); 20_memory.md section 2 (R33)] -/
def Obligations.AddStoresTheSum : Prop :=
  ∀ (s : State) (m1 m2 m3 : Mode) (d : Int), s.mem.wf → s.binaryFault m1 m2 m3 = none →
    s.operandAddress 3 m3 = some d →
    ∃ t, exec (.add m1 m2 m3) s = .next t ∧
      StoresAndAdvances s t d (s.operandValue 1 m1 + s.operandValue 2 m2)
        (max (max (s.reach 1 m1) (s.reach 2 m2)) (s.reach 3 m3)) (s.ip + 4)

/-- In canonical memory, when no parameter faults and parameter 3 names address d, the instruction completes: it stores
the exact product of the two operand values at d, the operands read from the state before, memory long enough for
every access, ip + 4, status Running; every other cell reads as before and nothing else changes. [41_arithmetic.md
(R91, R92); 40_execution_cycle_and_operands.md sections 3 and 4 (R74, R75, R76, R77, R80); 20_memory.md section 2
(R33)] -/
def Obligations.MultiplyStoresTheProduct : Prop :=
  ∀ (s : State) (m1 m2 m3 : Mode) (d : Int), s.mem.wf → s.binaryFault m1 m2 m3 = none →
    s.operandAddress 3 m3 = some d →
    ∃ t, exec (.multiply m1 m2 m3) s = .next t ∧
      StoresAndAdvances s t d (s.operandValue 1 m1 * s.operandValue 2 m2)
        (max (max (s.reach 1 m1) (s.reach 2 m2)) (s.reach 3 m3)) (s.ip + 4)

/-- In canonical memory, when no parameter faults and parameter 3 names address d, the instruction completes: it stores
1 if the first operand value is less than the second, else 0 at d, the operands read from the state before, memory
long enough for every access, ip + 4, status Running; every other cell reads as before and nothing else changes.
[44_comparison.md (R120, R122); 40_execution_cycle_and_operands.md sections 3 and 4 (R74, R75, R76, R77, R80);
20_memory.md section 2 (R33)] -/
def Obligations.LessThanStoresItsTruth : Prop :=
  ∀ (s : State) (m1 m2 m3 : Mode) (d : Int), s.mem.wf → s.binaryFault m1 m2 m3 = none →
    s.operandAddress 3 m3 = some d →
    ∃ t, exec (.lessThan m1 m2 m3) s = .next t ∧
      StoresAndAdvances s t d (if s.operandValue 1 m1 < s.operandValue 2 m2 then 1 else 0)
        (max (max (s.reach 1 m1) (s.reach 2 m2)) (s.reach 3 m3)) (s.ip + 4)

/-- In canonical memory, when no parameter faults and parameter 3 names address d, the instruction completes: it stores
1 if the two operand values are equal, else 0 at d, the operands read from the state before, memory long enough for
every access, ip + 4, status Running; every other cell reads as before and nothing else changes. [44_comparison.md
(R121, R122); 40_execution_cycle_and_operands.md sections 3 and 4 (R74, R75, R76, R77, R80); 20_memory.md section 2
(R33)] -/
def Obligations.EqualsStoresItsTruth : Prop :=
  ∀ (s : State) (m1 m2 m3 : Mode) (d : Int), s.mem.wf → s.binaryFault m1 m2 m3 = none →
    s.operandAddress 3 m3 = some d →
    ∃ t, exec (.equals m1 m2 m3) s = .next t ∧
      StoresAndAdvances s t d (if s.operandValue 1 m1 = s.operandValue 2 m2 then 1 else 0)
        (max (max (s.reach 1 m1) (s.reach 2 m2)) (s.reach 3 m3)) (s.ip + 4)

/-- In canonical memory, when inq is v followed by rest, the parameter does not fault and names address d, Input
completes: v is stored whole at d, inq is rest, ip + 2, status Running; every other cell reads as before and nothing
else changes. It says so of an interactive core too: that such a core takes from its queue before it prompts is the
spec's own decision D12, a choice that log entry 19 calls unsafe. [42_io.md (R100, R102, R103);
40_execution_cycle_and_operands.md section 3 (R75); 92_eei_decisions.md D12 (log entry 19)] -/
def Obligations.InputStoresTheFrontOfItsQueue : Prop :=
  ∀ (s : State) (m1 : Mode) (d : Int) (v : Int) (rest : List Int), s.mem.wf → s.inq = v :: rest →
    (s.targetFault 1 m1).or (s.cellFault 1 m1) = none → s.operandAddress 1 m1 = some d →
    ∃ t, exec (.input m1) s = .next t ∧
      StoresAndAdvances { s with inq := rest } t d v (s.reach 1 m1) (s.ip + 2)

/-- When inq is empty and the core is not interactive, Input answers the same state with status Suspended: no cause, no
memory growth, no fault, whatever its mode. That an Immediate or undefined dest does not fault before input arrives,
and that no memory grows, is the spec's own decision D11 (log entry 16): the queue is tested before the parameter.
[60_exceptions.md section 1 (R147); 42_io.md (R100); 92_eei_decisions.md D11 (log entry 16)] -/
def Obligations.EmptyInputOnlySuspends : Prop :=
  ∀ (s : State) (m1 : Mode), s.inq = [] → s.interactive = false →
    exec (.input m1) s = .next { s with status := .suspended }

/-- In canonical memory, when inq is empty, the core is interactive, the parameter does not fault and names address d,
Input completes with the free prompt value: it is stored at d, ip + 2, status Running, and the model's own draw
counter advances; nothing else changes. The value is free: the statement holds for every value. Queue first is the
spec's decision D12; the counter is the model's. [42_io.md (R102); 92_eei_decisions.md D12 (log entries 5 and 19)] -/
def Obligations.InteractiveInputStoresThePromptValue : Prop :=
  ∀ (s : State) (m1 : Mode) (d : Int), s.mem.wf → s.inq = [] → s.interactive = true →
    (s.targetFault 1 m1).or (s.cellFault 1 m1) = none → s.operandAddress 1 m1 = some d →
    ∃ t, exec (.input m1) s = .next t ∧
      StoresAndAdvances { s with drawn := s.drawn + 1 } t d (Config.promptValue s.drawn) (s.reach 1 m1) (s.ip + 2)

/-- When its parameter does not fault and the queue has room (always, without OUTQ_LIMIT), Output completes: outq gets
the operand value at the back, ip + 2, status Running; memory only lengthens and nothing else changes. [42_io.md
(R101, R104); 40_execution_cycle_and_operands.md section 3 (R74)] -/
def Obligations.OutputAppendsItsOperand : Prop :=
  ∀ (s : State) (m1 : Mode), s.readFault 1 m1 = none → admits s.cfg.outqLimit (s.outq.length + 1) = true →
    ∃ t, exec (.output m1) s = .next t ∧
      t = { s with mem := t.mem, outq := s.outq ++ [s.operandValue 1 m1], ip := s.ip + 2, status := .running } ∧
      OnlyExtends s t.mem (s.reach 1 m1)

/-- When neither parameter faults: if the condition value is non-zero and the target value is not negative, the
instruction completes with ip the target value; if the condition is not non-zero, with ip + 3, whatever the target
value. Status Running, memory only lengthens (both parameters are resolved either way, decision D10, log entry 15),
nothing else changes. [43_control_flow.md (R110, R112); 40_execution_cycle_and_operands.md section 3 (R74, R76);
92_eei_decisions.md D10 (log entry 15)] -/
def Obligations.JumpIfTrueFollowsItsCondition : Prop :=
  ∀ (s : State) (m1 m2 : Mode), s.readFault 1 m1 = none → s.readFault 2 m2 = none →
    (s.operandValue 1 m1 ≠ 0 → 0 ≤ s.operandValue 2 m2 →
      ∃ t, exec (.jumpIfTrue m1 m2) s = .next t ∧
        t = { s with mem := t.mem, ip := (s.operandValue 2 m2).toNat, status := .running } ∧
        OnlyExtends s t.mem (max (s.reach 1 m1) (s.reach 2 m2))) ∧
    (s.operandValue 1 m1 = 0 →
      ∃ t, exec (.jumpIfTrue m1 m2) s = .next t ∧
        t = { s with mem := t.mem, ip := s.ip + 3, status := .running } ∧
        OnlyExtends s t.mem (max (s.reach 1 m1) (s.reach 2 m2)))

/-- When neither parameter faults: if the condition value is zero and the target value is not negative, the instruction
completes with ip the target value; if the condition is not zero, with ip + 3, whatever the target value. Status
Running, memory only lengthens (both parameters are resolved either way, decision D10, log entry 15), nothing else
changes. [43_control_flow.md (R111, R112); 40_execution_cycle_and_operands.md section 3 (R74, R76);
92_eei_decisions.md D10 (log entry 15)] -/
def Obligations.JumpIfFalseFollowsItsCondition : Prop :=
  ∀ (s : State) (m1 m2 : Mode), s.readFault 1 m1 = none → s.readFault 2 m2 = none →
    (s.operandValue 1 m1 = 0 → 0 ≤ s.operandValue 2 m2 →
      ∃ t, exec (.jumpIfFalse m1 m2) s = .next t ∧
        t = { s with mem := t.mem, ip := (s.operandValue 2 m2).toNat, status := .running } ∧
        OnlyExtends s t.mem (max (s.reach 1 m1) (s.reach 2 m2))) ∧
    (s.operandValue 1 m1 ≠ 0 →
      ∃ t, exec (.jumpIfFalse m1 m2) s = .next t ∧
        t = { s with mem := t.mem, ip := s.ip + 3, status := .running } ∧
        OnlyExtends s t.mem (max (s.reach 1 m1) (s.reach 2 m2)))

/-- When neither parameter faults and the target value is negative, JumpIfTrue with a non-zero condition and JumpIfFalse
with a zero condition enter Failed with NegativeAddress of the target value, ip unchanged; the fault is the spec's
decision D6. [43_control_flow.md (R112); 92_eei_decisions.md D6 (log entry 11)] -/
def Obligations.NegativeJumpTargetFails : Prop :=
  ∀ (s : State) (m1 m2 : Mode), s.readFault 1 m1 = none → s.readFault 2 m2 = none → s.operandValue 2 m2 < 0 →
    (s.operandValue 1 m1 ≠ 0 →
      ∃ t, exec (.jumpIfTrue m1 m2) s = .next t ∧ FailedWith s t (.negativeAddress (s.operandValue 2 m2))) ∧
    (s.operandValue 1 m1 = 0 →
      ∃ t, exec (.jumpIfFalse m1 m2) s = .next t ∧ FailedWith s t (.negativeAddress (s.operandValue 2 m2)))

/-- When its parameter does not fault, AdjustRelativeBase completes: rb becomes the old rb plus the operand value
(itself read with the old rb), ip + 2, status Running; memory only lengthens and nothing else changes.
[45_base_adjustment.md (R130); 40_execution_cycle_and_operands.md section 3 (R74)] -/
def Obligations.AdjustRelativeBaseAddsItsOperand : Prop :=
  ∀ (s : State) (m1 : Mode), s.readFault 1 m1 = none →
    ∃ t, exec (.adjustRelativeBase m1) s = .next t ∧
      t = { s with mem := t.mem, rb := s.rb + s.operandValue 1 m1, ip := s.ip + 2, status := .running } ∧
      OnlyExtends s t.mem (s.reach 1 m1)

/-- In every state Halt answers the same state with status Halted; that ip stays on the Halt word is the spec's decision
D13. [46_halt.md (R135); 92_eei_decisions.md D13 (log entry 17)] -/
def Obligations.HaltChangesOnlyTheStatus : Prop :=
  ∀ s : State, exec .halt s = .next { s with status := .halted }

/-- Whenever one of the four answers a next state: rb, inq, outq, interactive, and the model's cfg and drawn are
unchanged; cause is unchanged unless it faults; if the resolution of its parameters gives d as the address stored
to, every address other than d reads as before; if the resolution faults, every address does. That a faulting one
changes no more is the spec's decision D8 (log entry 13). [41_arithmetic.md (R90, R91); 44_comparison.md (R120,
R121); 10_state.md sections 2 and 3 (R13, R20); 90_conflicts.md C4; 92_eei_decisions.md D8 (log entry 13)] -/
def Obligations.BinaryInstructionsFrame : Prop :=
  ∀ (i : Instr) (m1 m2 m3 : Mode) (s t : State),
    i = .add m1 m2 m3 ∨ i = .multiply m1 m2 m3 ∨ i = .lessThan m1 m2 m3 ∨ i = .equals m1 m2 m3 →
    exec i s = .next t →
      (t.rb = s.rb ∧ t.inq = s.inq ∧ t.outq = s.outq ∧ t.interactive = s.interactive ∧ t.cfg = s.cfg ∧
        t.drawn = s.drawn) ∧
      (t.status ≠ .failed → t.cause = s.cause) ∧
      (∀ a b d u, s.resolveThree m1 m2 m3 = .ok (a, b, d, u) →
        ∀ x : Nat, (x : Int) ≠ d → t.mem.get x = s.mem.get x) ∧
      (∀ e, s.resolveThree m1 m2 m3 = .error e → ∀ x : Nat, t.mem.get x = s.mem.get x)

/-- Whenever Input answers a next state: rb, outq, interactive and cfg are unchanged; cause is unchanged unless it
faults; inq is unchanged or has lost its front element; the model's draw counter is unchanged or has advanced by
one, the latter only from an empty queue in interactive mode; if its parameter resolves to address d, every address
other than d reads as before; if the resolution faults or the Input suspends, every address does. The counter is the
model's own field (log entry 5). That a prompt is taken only when the queue is empty is the spec's own decision D12
(log entry 19), that a suspending Input touches nothing its decision D11 (log entry 16), that a faulting one does
too its decision D8 (log entry 13). [42_io.md (R100, R102, R103); 10_state.md sections 2 and 3 (R13, R14, R20);
92_eei_decisions.md D12 (log entries 5 and 19); 92_eei_decisions.md D11 (log entry 16); 92_eei_decisions.md D8 (log
entry 13)] -/
def Obligations.InputFrame : Prop :=
  ∀ (m1 : Mode) (s t : State), exec (.input m1) s = .next t →
    (t.rb = s.rb ∧ t.outq = s.outq ∧ t.interactive = s.interactive ∧ t.cfg = s.cfg) ∧
    (t.status ≠ .failed → t.cause = s.cause) ∧
    (t.inq = s.inq ∨ t.inq = s.inq.tail) ∧
    (t.drawn = s.drawn ∨ (t.drawn = s.drawn + 1 ∧ s.inq = [] ∧ s.interactive = true)) ∧
    (∀ d u, s.writeTarget 1 m1 = .ok (d, u) → ∀ x : Nat, (x : Int) ≠ d → t.mem.get x = s.mem.get x) ∧
    (∀ e, s.writeTarget 1 m1 = .error e → ∀ x : Nat, t.mem.get x = s.mem.get x) ∧
    (t.status = .suspended → t.mem = s.mem)

/-- Whenever one of these answers a next state: every address of memory reads as before; inq, interactive, cfg and drawn
are unchanged; outq is unchanged unless it is Output, rb unless it is AdjustRelativeBase; cause is unchanged unless
it faults. That a faulting one changes no more is the spec's decision D8 (log entry 13). [42_io.md (R101);
43_control_flow.md (R110, R111); 45_base_adjustment.md (R130); 46_halt.md (R135); 90_conflicts.md C4;
92_eei_decisions.md D8 (log entry 13)] -/
def Obligations.NonStoringInstructionsFrame : Prop :=
  ∀ (i : Instr) (m1 m2 : Mode) (s t : State),
    i = .output m1 ∨ i = .jumpIfTrue m1 m2 ∨ i = .jumpIfFalse m1 m2 ∨ i = .adjustRelativeBase m1 ∨ i = .halt →
    exec i s = .next t →
      (∀ x : Nat, t.mem.get x = s.mem.get x) ∧
      (t.inq = s.inq ∧ t.interactive = s.interactive ∧ t.cfg = s.cfg ∧ t.drawn = s.drawn) ∧
      (i ≠ .output m1 → t.outq = s.outq) ∧
      (i ≠ .adjustRelativeBase m1 → t.rb = s.rb) ∧
      (t.status ≠ .failed → t.cause = s.cause)

/-- For every instruction and state: if e is the first fault in the order of R151, worked out from the state before the
instruction alone, then the instruction enters Failed with e and changes nothing else. The order, InvalidMode and
NegativeAddress are the spec's decisions D9, D3, D5 and D6, the precise fault D8, that an untaken jump resolves its
target D10, that a waiting Input meets no fault D11 (log entries 14, 9, 10, 11, 13, 15, 16), and the limits D1 (log
entry 3). By D8 the model's draw counter (log entry 5) stays too. [60_exceptions.md section 2 (R150, R151);
92_eei_decisions.md D9 (log entry 14); 92_eei_decisions.md D3 (log entry 9); 92_eei_decisions.md D5 (log entry 10);
92_eei_decisions.md D6, D8, D10, D11 (log entries 11, 13, 15, 16); 92_eei_decisions.md D1 (log entry 3)] -/
def Obligations.FirstFaultIsTheOneReported : Prop :=
  ∀ (i : Instr) (s : State) (e : Raised), firstFault i s = some e →
    ∃ t, exec i s = .next t ∧ FailedWith s t e

/-- For every instruction that answers t: t is Failed exactly when there is a first fault; without one, Halt ends
Halted, an Input that must wait ends Suspended, and every other instruction ends Running. What counts as a fault
rests on the spec's own choices: the list and order of R151 is decision D9 (log entry 14), that a waiting Input with
a bad dest does not fault D11 (log entry 16), and the faults themselves D3, D5, D6 and D10 (log entries 9, 10, 11,
15), with the limits of D1 (log entry 3). [60_exceptions.md section 2 (R150, R151);
40_execution_cycle_and_operands.md section 1 (R70); 92_eei_decisions.md D9 (log entry 14); 92_eei_decisions.md D11
(log entry 16); 92_eei_decisions.md D3, D5, D6, D10 (log entries 9, 10, 11, 15); 92_eei_decisions.md D1 (log entry
3)] -/
def Obligations.InstructionsFailExactlyOnAFault : Prop :=
  ∀ (i : Instr) (s t : State), exec i s = .next t →
    (t.status = .failed ↔ firstFault i s ≠ none) ∧
    (firstFault i s = none →
      t.status = if i = .halt then .halted else if i.opcode = 3 ∧ s.waits = true then .suspended else .running)

/-- Parameter 3 of Add, Multiply, LessThan and Equals in Immediate mode, when it is reached without an earlier fault,
fails with InvalidWriteMode(3); parameter 1 of an Input that does not wait, in Immediate mode, with
InvalidWriteMode(1); and a record with InvalidWriteMode(k) comes only from an instruction whose parameter k is a
write parameter in Immediate mode. That an earlier fault is reported instead is the spec's decision D9 (log entry
14), that a waiting Input does not fault D11 (log entry 16), that the faulting instruction changes nothing else, the
queue and the model's draw counter (log entry 5) included, D8 (log entry 13). [60_exceptions.md section 1 (R143);
60_exceptions.md section 2 (R150, R151); 92_eei_decisions.md D8, D9, D11 (log entries 5, 13, 14, 16)] -/
def Obligations.InvalidWriteModeComesFromImmediateTargets : Prop :=
  (∀ (i : Instr) (s : State) (m1 m2 : Mode),
    i = .add m1 m2 .immediate ∨ i = .multiply m1 m2 .immediate ∨ i = .lessThan m1 m2 .immediate ∨
      i = .equals m1 m2 .immediate →
    s.readFault 1 m1 = none → s.readFault 2 m2 = none → s.accessFault (s.ip + 3) = none →
    ∃ t, exec i s = .next t ∧ FailedWith s t (.invalidWriteMode 3)) ∧
  (∀ s : State, s.waits = false → s.accessFault (s.ip + 1) = none →
    ∃ t, exec (.input .immediate) s = .next t ∧ FailedWith s t (.invalidWriteMode 1)) ∧
  (∀ (i : Instr) (s t : State) (c : Cause) (k : Nat), s.cause = none → exec i s = .next t → t.cause = some c →
    c.what = .invalidWriteMode k → 1 ≤ k ∧ i.params[k - 1]? = some (.write, .immediate))

/-- If some parameter of the instruction has an undefined mode and the instruction is no Input that waits, it ends
Failed; on parameter 1, with its word accessible, with InvalidMode(1, digit). An instruction raises InvalidMode with
a digit only if some parameter of it, whatever its number, has that digit. The fault is the spec's decision D3, that
a conditional jump which is not taken fails on an undefined target mode too its decision D10 (log entry 15), that a
waiting Input does not raise it D11 (log entry 16), that parameter 1 is met first D9 (log entry 14), that the
faulting instruction changes nothing else D8 (log entry 13): an interactive Input with an empty queue, which prompts
before it looks at its parameter, so leaves the model's draw counter (log entry 5) as it was. [60_exceptions.md
section 1 (R145); 30_encoding.md section 2 (R55, R58); 92_eei_decisions.md D3 (log entry 9);
40_execution_cycle_and_operands.md section 3 (R76); 92_eei_decisions.md D9, D11 (log entries 14 and 16);
92_eei_decisions.md D10 (log entry 15); 42_io.md (R102); 92_eei_decisions.md D8 (log entries 5 and 13)] -/
def Obligations.UndefinedModeFailsOnAParameterThatExists : Prop :=
  (∀ (i : Instr) (s t : State) (k : ParamKind) (d : Nat), (k, Mode.illegal d) ∈ i.params →
    (i.opcode = 3 → s.waits = false) → exec i s = .next t → t.status = .failed) ∧
  (∀ (i : Instr) (s : State) (k : ParamKind) (d : Nat), i.params.head? = some (k, Mode.illegal d) →
    (i.opcode = 3 → s.waits = false) → s.accessFault (s.ip + 1) = none →
    ∃ t, exec i s = .next t ∧ FailedWith s t (.invalidMode 1 d)) ∧
  (∀ (i : Instr) (s t : State) (c : Cause) (k d : Nat), s.cause = none → exec i s = .next t → t.cause = some c →
    c.what = .invalidMode k d → ∃ kind, (kind, Mode.illegal d) ∈ i.params)

/-- If a step takes a state that is not Failed to a Failed one, the new state is the old one after fault entry with some
fault: ip, rb, the queues and every cell's value are those before the instruction. Nothing is said about the length
of a Failed core's memory (U15); precision is the spec's decision D8, by which the model's draw counter (log entry
5) stays too. [60_exceptions.md section 2 (R150); 40_execution_cycle_and_operands.md section 5 (R78);
92_eei_decisions.md D8 (log entry 13)] -/
def Obligations.FaultLeavesTheStateBeforeIt : Prop :=
  ∀ s t : State, step s = .next t → s.status ≠ .failed → t.status = .failed → ∃ e, FailedWith s t e

/-- On a machine without MEM_LIMIT and OUTQ_LIMIT, a step from a state without a fault record never leaves a record of
kind ResourceExhausted. [60_exceptions.md section 1 (R140, R149); 92_eei_decisions.md D1 (log entry 3)] -/
def Obligations.NoExhaustionWithoutLimits : Prop :=
  ∀ (s t : State) (c : Cause), s.cfg.memLimit = none → s.cfg.outqLimit = none → s.cause = none →
    step s = .next t → t.cause = some c → c.what.kind ≠ .resourceExhausted

/-- State.reset is the state after LOAD of the empty program: memory of length 0 in which every address reads 0, ip and
rb 0, both queues empty, status Ready, no fault record, not interactive; and it meets the invariants. The values of
the queues, status, cause and INTERACTIVE, and that reset means the empty program, are the spec's decision D19 and
the model's reading of it (log entry 18). [10_state.md section 7 (R26); 10_state.md section 5 (R25);
92_eei_decisions.md D19 (log entry 18)] -/
def Obligations.ResetMeetsTheInvariants : Prop :=
  State.reset.Inv ∧
  State.reset.mem.len = 0 ∧ (∀ a : Nat, State.reset.mem.get a = 0) ∧
  State.reset.ip = 0 ∧ State.reset.rb = 0 ∧
  State.reset.inq = [] ∧ State.reset.outq = [] ∧
  State.reset.status = .ready ∧ State.reset.cause = none ∧ State.reset.interactive = false

/-- For every state that meets the invariants, a step leads to a state that meets them: memory canonical, a fault record
exactly when Failed, the record naming ip and the word there and never MalformedOpcode, a Suspended core at an Input
and not interactive, lengths within the limits. The limits are the spec's decision D1 (log entry 3), that
MalformedOpcode is never raised its decision D15 (log entry 24), that a negative word can be an Input its decision
D2 (log entry 8). [10_state.md section 5 (R25); 10_state.md section 2 (R18); 60_exceptions.md sections 1 and 2
(R141, R149, R150); 92_eei_decisions.md D1 (log entry 3); 92_eei_decisions.md D15 (log entry 24)] -/
def Obligations.StepKeepsTheInvariants : Prop :=
  ∀ s t : State, s.Inv → step s = .next t → t.Inv

/-- For every state that meets the invariants and every transaction (LOAD, PUSH_IN, POP_OUT, RUN with any fuel, STEP,
OBSERVE), the state after it meets them. That a LOAD longer than MEM_LIMIT leaves memory within the limit holds
because the model refuses it to the host: a choice of the model, DESIGN CHOICE and unsafe, log entry 4. The limits
are the spec's decision D1 (log entry 3), the transaction set its decision D17 (log entry 20), RUN under fuel the
model's (log entry 21). [60_exceptions.md section 6 (R157, R163, R164); 10_state.md section 5 (R25);
70_reset_and_hazards.md section 1 (R180); 60_exceptions.md section 1 (R149); 92_eei_decisions.md D1 (log entries 3
and 4); 92_eei_decisions.md D17 (log entry 20)] -/
def Obligations.TransactionsKeepTheInvariants : Prop :=
  ∀ (s : State) (x : Transaction), s.Inv → (perform s x).1.Inv

/-- For every state and transaction: the parameters cfg are unchanged; if the transaction is not LOAD, the length of
memory does not decrease and interactive is unchanged. The field cfg is the model's own (log entry 3); that
INTERACTIVE is fixed at LOAD is the spec's decision D12 (log entry 19), the transaction set its decision D17 (log
entry 20). [10_state.md section 2 (R11, R28); 10_state.md section 5 (R25); 20_memory.md section 2 (R33);
92_eei_decisions.md D12 (log entry 19); 92_eei_decisions.md D17 (log entry 20)] -/
def Obligations.MemoryNeverShrinksAndConfigurationStays : Prop :=
  ∀ (s : State) (x : Transaction),
    (perform s x).1.cfg = s.cfg ∧
    (x.isLoad = false → s.mem.len ≤ (perform s x).1.mem.len ∧ (perform s x).1.interactive = s.interactive)

/-- If a step of a live core leaves Suspended, the instruction at ip is an Input, inq is empty and the core is not
interactive; and a RUN that returns with a live status returns Suspended, so no other condition gives control back
while the status stays live. [R105] -/
def Obligations.OnlyAnEmptyInputSuspends : Prop :=
  (∀ s t : State, s.status.live = true → step s = .next t → t.status = .suspended →
    (∃ m, s.nextInstr = .ok (.input m)) ∧ s.inq = [] ∧ s.interactive = false) ∧
  (∀ (s t : State) (fuel : Nat), s.run fuel = some t → t.status.live = true → t.status = .suspended)

/-- Whenever an instruction answers a next state: if it did not complete (Halt, suspension, fault) ip is unchanged; if
it completed, ip is the old ip + 4 for Add, Multiply, LessThan, Equals, + 2 for Input, Output, AdjustRelativeBase,
and for a jump the target value if taken, else + 3; computed from the ip before. That ip stays on the Halt word is
the spec's own decision D13, a choice that log entry 17 calls unsafe; that a faulting instruction leaves ip is its
decision D8 (log entry 13). [40_execution_cycle_and_operands.md section 4 (R77); 43_control_flow.md (R112);
46_halt.md (R135); 92_eei_decisions.md D13 (log entry 17); 92_eei_decisions.md D8 (log entry 13)] -/
def Obligations.InstructionPointerMovesByTheRule : Prop :=
  ∀ (i : Instr) (s t : State), exec i s = .next t →
    (t.status ≠ .running → t.ip = s.ip) ∧
    (t.status = .running →
      match i with
      | .add _ _ _ => t.ip = s.ip + 4
      | .multiply _ _ _ => t.ip = s.ip + 4
      | .input _ => t.ip = s.ip + 2
      | .output _ => t.ip = s.ip + 2
      | .jumpIfTrue m1 m2 => (t.ip : Int) = if s.operandValue 1 m1 ≠ 0 then s.operandValue 2 m2 else s.ip + 3
      | .jumpIfFalse m1 m2 => (t.ip : Int) = if s.operandValue 1 m1 = 0 then s.operandValue 2 m2 else s.ip + 3
      | .lessThan _ _ _ => t.ip = s.ip + 4
      | .equals _ _ _ => t.ip = s.ip + 4
      | .adjustRelativeBase _ => t.ip = s.ip + 2
      | .halt => False)

/-- Whenever an instruction answers t: inq is unchanged, or it is a completed Input and inq lost its front element; outq
is unchanged, or it is a completed Output and outq gained its operand value at the back. An instruction other than
Input acts the same whatever inq holds, and one other than Output the same whatever outq holds. That only a
completed Input takes its element (R14, R103), so that a faulting one keeps it although it had taken it before its
write, is the spec's decision D8 (log entry 13). [20_memory.md section 1 (R44); 10_state.md section 2 (R14, R15);
42_io.md (R103); 40_execution_cycle_and_operands.md section 5 (R78); 92_eei_decisions.md D8 (log entry 13)] -/
def Obligations.QueuesAreReachedOnlyByInputAndOutput : Prop :=
  (∀ (i : Instr) (s t : State), exec i s = .next t →
    (t.inq = s.inq ∨ ∃ m v, i = .input m ∧ s.inq = v :: t.inq ∧ t.status = .running) ∧
    (t.outq = s.outq ∨ ∃ m, i = .output m ∧ t.outq = s.outq ++ [s.operandValue 1 m] ∧ t.status = .running)) ∧
  (∀ (i : Instr) (s t : State) (q : List Int), (∀ m, i ≠ .input m) → exec i s = .next t →
    exec i { s with inq := q } = .next { t with inq := q }) ∧
  (∀ (i : Instr) (s t : State) (q : List Int), (∀ m, i ≠ .output m) → exec i s = .next t →
    exec i { s with outq := q } = .next { t with outq := q })

/-- Without OUTQ_LIMIT, every instruction that answers t appends some elements to outq: exactly its operand value for a
completed Output, none otherwise; and from the same state with any other outq it does exactly the same, appending
the same elements. POP_OUT removes the front and changes nothing else. [R15] -/
def Obligations.OutputQueueIsWrittenAtTheBackAndNeverRead : Prop :=
  (∀ (i : Instr) (s t : State), s.cfg.outqLimit = none → exec i s = .next t →
    ∃ added, t.outq = s.outq ++ added ∧
      (∀ m, i = .output m → t.status = .running → added = [s.operandValue 1 m]) ∧
      ((∀ m, i ≠ .output m) ∨ t.status ≠ .running → added = []) ∧
      ∀ q, exec i { s with outq := q } = .next { t with outq := q ++ added }) ∧
  (∀ (s : State) (v : Int) (rest : List Int), s.outq = v :: rest →
    perform s .popOut = ({ s with outq := rest }, .popped (some v)))

/-- If a step leaves rb different from before, the instruction at ip is AdjustRelativeBase and the new rb is the old rb
plus its operand value. [10_state.md section 2 (R13); 45_base_adjustment.md (R130, R131)] -/
def Obligations.OnlyAdjustRelativeBaseMovesRb : Prop :=
  ∀ s t : State, step s = .next t → t.rb ≠ s.rb →
    ∃ m, s.nextInstr = .ok (.adjustRelativeBase m) ∧ t.rb = s.rb + s.operandValue 1 m

/-- If no parameter of i is in Relative mode and exec i s answers t, then from s with any other relative base r the
instruction does exactly the same, with rb moved by the same amount. [45_base_adjustment.md (R131); 20_memory.md
section 4 (R39)] -/
def Obligations.RelativeBaseMattersOnlyInRelativeMode : Prop :=
  ∀ (i : Instr) (s t : State) (r : Int), (∀ p ∈ i.params, p.2 ≠ .relative) → exec i s = .next t →
    exec i { s with rb := r } = .next { t with rb := r + (t.rb - s.rb) }

/-- From a terminal status a step changes nothing at all (for Failed this is the spec's decision D16, log entry 18).
From a live status it ends Halted if the instruction is Halt, Suspended if it is an Input that must wait, Failed if
fetch, dispatch or the instruction faults, and Running otherwise; never Ready. What counts as a fault rests on the
spec's own choices D3, D5, D6, D7, D9, D10 and D11 (log entries 9 to 12 and 14 to 16), as in
InstructionsFailExactlyOnAFault. [10_state.md section 6 (R27); 40_execution_cycle_and_operands.md section 1 (R70);
92_eei_decisions.md D16 (log entry 18)] -/
def Obligations.StepMovesTheStatusByTheTable : Prop :=
  ∀ s t : State, step s = .next t →
    (s.status.live = false → t = s) ∧
    (s.status.live = true →
      (t.status = .halted ↔ s.nextInstr = .ok .halt) ∧
      (t.status = .suspended ↔ s.waits = true ∧ ∃ m, s.nextInstr = .ok (.input m)) ∧
      (t.status = .failed ↔ (∃ e, s.nextInstr = .error e) ∨ ∃ i, s.nextInstr = .ok i ∧ firstFault i s ≠ none) ∧
      t.status ≠ .ready)

/-- In canonical memory, when a storing instruction completes and the address it stores to is the new ip, the next fetch
gives the stored value; when it is another address, the cell at the new ip reads as before. For an Input of an
interactive core the stored value is the front of its queue when it has one: that the queue comes before the prompt
is the spec's own decision D12, a choice that log entry 19 calls unsafe; with an empty queue it is the free prompt
value (log entry 5), and the statement holds for every value. [20_memory.md section 5 (R42); 70_reset_and_hazards.md
section 3 (R185, R186); 40_execution_cycle_and_operands.md section 5 (R79); 42_io.md (R100, R102);
92_eei_decisions.md D12 (log entries 5 and 19)] -/
def Obligations.StoreIsSeenByTheNextFetch : Prop :=
  ∀ (i : Instr) (s t : State) (d : Int) (v : Int), s.mem.wf → exec i s = .next t → t.status = .running →
    storeOf i s = some (d, v) →
      ((t.ip : Int) = d → t.fetch = .ok v) ∧ ((t.ip : Int) ≠ d → t.mem.get t.ip = s.mem.get t.ip)

/-- If a run from s ends Suspended in t, and after PUSH_IN(v) the run from t ends in u, then the run from s with v
appended to its input queue beforehand ends in u too. That a suspending Input changes nothing at all is the spec's
decision D11 (log entry 16). [42_io.md (R100); 60_exceptions.md section 2 (R154); 95_test_vectors.md section 1.1
(SP4); 92_eei_decisions.md D11 (log entry 16)] -/
def Obligations.ResumedRunEqualsRunWithInputFromTheStart : Prop :=
  ∀ (s t u : State) (v : Int), RunsTo s t → t.status = .suspended → RunsTo (t.pushIn v) u → RunsTo (s.pushIn v) u

/-- From a Halted state, STEP and RUN change nothing and return Halted; after any sequence of transactions without LOAD
the status is Halted and mem, ip, rb, cause and interactive are unchanged, inq has at most gained elements at its
back, and outq has at most lost elements from its front. The transaction set is the spec's decision D17 (log entry
20). A live core whose ip is at or beyond the end of memory ends its next step Failed (decision D7, log entry 12).
That a step enters Halted only by Halt is stated in StepMovesTheStatusByTheTable. [46_halt.md (R136); 10_state.md
section 5 (R25); 60_exceptions.md section 6 (R158, R163, R164); 40_execution_cycle_and_operands.md section 2 (R72);
92_eei_decisions.md D17 (log entry 20); 92_eei_decisions.md D7 (log entry 12)] -/
def Obligations.HaltIsFinal : Prop :=
  (∀ (s : State) (fuel : Nat), s.status = .halted →
    perform s .step = (s, .status .halted) ∧ perform s (.run fuel) = (s, .status .halted)) ∧
  (∀ (s : State) (xs : List Transaction), s.status = .halted → (∀ x ∈ xs, x.isLoad = false) →
    ∃ added outs, outs <:+ s.outq ∧ (performAll s xs).1 = { s with inq := s.inq ++ added, outq := outs }) ∧
  (∀ s : State, s.status.live = true → s.mem.len ≤ s.ip → ∃ t, step s = .next t ∧ t.status = .failed)

/-- From a live state, RUN ends in t with enough fuel exactly when t is reached by one or more steps, each but the last
leaving Running and the last not; RUN returns that status. From a Halted or Failed state RUN changes nothing and
returns the status, with any fuel. That RUN on a Failed core is a no-op is the spec's own decision D16 (log entry
18); the fuel is the model's (log entry 21). [40_execution_cycle_and_operands.md section 1 (R71); 10_state.md
section 6 (R27); 92_eei_decisions.md D16 (log entry 18); 70_reset_and_hazards.md section 4 (R188; log entry 21)] -/
def Obligations.RunRepeatsStepsUntilNotRunning : Prop :=
  (∀ s t : State, s.status.live = true → ((∃ fuel, s.run fuel = some t) ↔ RunsTo s t)) ∧
  (∀ (s : State) (fuel : Nat), s.status.live = false → perform s (.run fuel) = (s, .status s.status)) ∧
  (∀ (s t : State) (fuel : Nat), s.run fuel = some t → perform s (.run fuel) = (t, .status t.status))

/-- After LOAD(program, b), within MEM_LIMIT if it is set, memory is the program and nothing else, ip and rb are 0, the
queues are empty, status is Ready, there is no cause, interactive is b: nothing of the state before survives but the
machine's parameters and the model's draw counter (log entries 3 and 5). The queues, status and cause are the spec's
decision D19, INTERACTIVE as an argument of LOAD its decision D12 (log entry 19). [70_reset_and_hazards.md section 1
(R180, R181, R182); 10_state.md section 7 (R26); 92_eei_decisions.md D19 (log entry 18); 92_eei_decisions.md D12
(log entry 19)] -/
def Obligations.LoadPlacesTheProgram : Prop :=
  ∀ (s : State) (program : Program) (b : Bool), admits s.cfg.memLimit program.length = true →
    ∃ t, perform s (.load program b) = (t, .done) ∧
      t.mem.toList = program ∧ t.mem.len = program.length ∧ t.mem.wf ∧
      t = { mem := t.mem, ip := 0, rb := 0, inq := [], outq := [], status := .ready, cause := none, interactive := b,
            cfg := s.cfg, drawn := s.drawn }

/-- In every state: PUSH_IN within INQ_LIMIT appends its value at the back of inq and changes nothing else; POP_OUT on
an empty outq returns empty and changes nothing, otherwise it removes and returns the front; OBSERVE changes nothing
and returns the copy. The transaction set is the spec's decision D17 (log entry 20). [60_exceptions.md section 6
(R158, R162, R163, R164); 20_memory.md section 2 (R45); 92_eei_decisions.md D17 (log entry 20)] -/
def Obligations.HostTransactionsTouchOnlyTheirQueueEnds : Prop :=
  ∀ (s : State) (v w : Int) (rest : List Int),
    (admits s.cfg.inqLimit (s.inq.length + 1) = true →
      perform s (.pushIn v) = ({ s with inq := s.inq ++ [v] }, .done)) ∧
    (s.outq = [] → perform s .popOut = (s, .popped none)) ∧
    (s.outq = w :: rest → perform s .popOut = ({ s with outq := rest }, .popped (some w))) ∧
    perform s .observe = (s, .observed s.observe)

/-- If a core is not interactive and its step answers t, then from the same state with any other draw counter (so with
any other prompt values) the step answers t with that counter. The counter is the model's own field (log entry 5).
[60_exceptions.md section 6 (R173); 42_io.md (R102); 92_eei_decisions.md D12 (log entries 5 and 19)] -/
def Obligations.PromptDoesNotMatterWhenNotInteractive : Prop :=
  ∀ (s t : State) (n : Nat), s.interactive = false → step s = .next t →
    step { s with drawn := n } = .next { t with drawn := n }

/-- If the run of core s after PUSH_IN(v) ends in t: when t is Failed the activation aborts with that core's fault; when
outq of t holds exactly one element it gives it, with the core's outq emptied; otherwise it aborts with the number
of outputs. That exactly one output is demanded in both modes is a choice on the source's open question U9, and that
an activation lasts until RUN returns is the spec's own decision D22 (both log entry 22); the fuel is the model's
(log entry 21). [60_exceptions.md section 7 (R166, R169, R170); 93_implementation_defined.md U9 (log entry 22);
92_eei_decisions.md D22 (log entry 22)] -/
def Obligations.ActivationDemandsExactlyOneOutput : Prop :=
  ∀ (fuel i : Nat) (s t : State) (v : Int), (s.pushIn v).run fuel = some t →
    (t.status = .failed → activate fuel i s v = .error (.coreFailed i t.cause)) ∧
    (∀ out, t.status ≠ .failed → t.outq = [out] → activate fuel i s v = .ok ({ t with outq := [] }, out)) ∧
    (t.status ≠ .failed → t.outq.length ≠ 1 →
      activate fuel i s v = .error (.unexpectedOutputCount i t.outq.length))

/-- One turn: a Halted core at the head of the list is kept as it is and the rest goes on with the same signal; a live
one is activated, and the rest goes on with its output, or the round aborts with its error; an abort in the rest
aborts the round. If every core is Halted, the round leaves them and the signal as they are and makes no output. A
round that succeeds gives back as many cores as it was given, in their order, each Halted core unchanged. The last
component is the output the last core made, if it was activated. Skipping is the spec's decision D22 (log entry 22).
[60_exceptions.md section 7 (R168, R171); 92_eei_decisions.md D22 (log entry 22)] -/
def Obligations.HaltedCoresPassTheSignalOn : Prop :=
  (∀ (fuel i : Nat) (s : State) (rest : List State) (v : Int), s.status = .halted →
    (∀ e, networkRound fuel (i + 1) rest v = .error e → networkRound fuel i (s :: rest) v = .error e) ∧
    (∀ ts w made, networkRound fuel (i + 1) rest v = .ok (ts, w, made) →
      networkRound fuel i (s :: rest) v = .ok (s :: ts, w, made))) ∧
  (∀ (fuel i : Nat) (s : State) (rest : List State) (v : Int), s.status ≠ .halted →
    (∀ e, activate fuel i s v = .error e → networkRound fuel i (s :: rest) v = .error e) ∧
    (∀ t out, activate fuel i s v = .ok (t, out) →
      (∀ e, networkRound fuel (i + 1) rest out = .error e → networkRound fuel i (s :: rest) v = .error e) ∧
      (∀ ts w made, networkRound fuel (i + 1) rest out = .ok (ts, w, made) →
        networkRound fuel i (s :: rest) v = .ok (t :: ts, w, if rest = [] then some out else made)))) ∧
  (∀ (fuel i : Nat) (cores : List State) (v : Int), (∀ s ∈ cores, s.status = .halted) →
    networkRound fuel i cores v = .ok (cores, v, none)) ∧
  (∀ (fuel i : Nat) (cores after : List State) (v w : Int) (made : Option Int),
    networkRound fuel i cores v = .ok (after, w, made) →
    after.length = cores.length ∧
    ∀ (k : Nat) (s : State), cores[k]? = some s → s.status = .halted → after[k]? = some s)
end

