-- ==== Sys2Proof/Laws/Decode.lean ====
section
/-! SUPPORT. The decimal decoder: digits, modes and the opcode of a word. -/

namespace Sys2Proof

/-- A mode digit read back as a mode. -/
theorem Mode.ofDigit_digit {m : Mode} (h : m.wellFormed = true) : Mode.ofDigit m.digit = m := by
  cases m with
  | position => rfl
  | immediate => rfl
  | relative => rfl
  | illegal d =>
    simp only [Mode.wellFormed, Bool.and_eq_true, decide_eq_true_eq] at h
    obtain ⟨h3, -⟩ := h
    match d, h3 with
    | d + 3, _ => rfl

/-- A decimal digit gives a mode the decoder can give. -/
theorem Mode.wellFormed_ofDigit {d : Nat} (h : d < 10) : (Mode.ofDigit d).wellFormed = true := by
  match d, h with
  | 0, _ => rfl
  | 1, _ => rfl
  | 2, _ => rfl
  | d + 3, h => simp [Mode.ofDigit, Mode.wellFormed]; omega

/-- A mode written as its digit. -/
theorem Mode.digit_ofDigit (d : Nat) : (Mode.ofDigit d).digit = d := by
  match d with
  | 0 => rfl
  | 1 => rfl
  | 2 => rfl
  | d + 3 => rfl

theorem Mode.digit_lt {m : Mode} (h : m.wellFormed = true) : m.digit < 10 := by
  cases m with
  | position => simp [Mode.digit]
  | immediate => simp [Mode.digit]
  | relative => simp [Mode.digit]
  | illegal d => simp [Mode.wellFormed] at h; simp [Mode.digit]; omega

theorem dig_lt (w : Int) (k : Nat) : dig w k < 10 := by
  unfold dig
  have h1 := Int.emod_lt_of_pos (w / (10 : Int) ^ k) (by decide : (0 : Int) < 10)
  have h2 := Int.emod_nonneg (w / (10 : Int) ^ k) (by decide : (10 : Int) ≠ 0)
  omega

theorem opcodeOf_lt (w : Int) : opcodeOf w < 100 := by
  unfold opcodeOf
  omega

/-- The opcode of a decoded word is its two low digits (R52). -/
@[simp] theorem decodeFields_opcode (w : Int) : (decodeFields w).opcode = opcodeOf w := by
  unfold decodeFields
  split <;> rfl

/-- The three mode digits are decimal digits. -/
theorem decodeFields_digits (w : Int) :
    (decodeFields w).m1 < 10 ∧ (decodeFields w).m2 < 10 ∧ (decodeFields w).m3 < 10 := by
  unfold decodeFields
  split
  · simp
  · exact ⟨dig_lt w 2, dig_lt w 3, dig_lt w 4⟩

end Sys2Proof
end

