-- ==== Sys2Proof/Laws/Memory.lean ====
section
/-! SUPPORT. The laws of memory as data: reading after growth and after a store (R31, R32, R33), and that every memory
operation keeps the canonical form. -/

namespace Sys2Proof.Machine

/-! ### Growth -/

@[simp] theorem Memory.get_grow (m : Memory) (n : Nat) (a : Nat) : (m.grow n).get a = m.get a := rfl
@[simp] theorem Memory.len_grow (m : Memory) (n : Nat) : (m.grow n).len = max m.len n := rfl

@[simp] theorem Memory.grow_grow (m : Memory) (n k : Nat) : (m.grow n).grow k = m.grow (max n k) := by
  simp [Memory.grow, Nat.max_assoc]

theorem Memory.grow_of_le (m : Memory) {n : Nat} (h : n ≤ m.len) : m.grow n = m := by
  simp [Memory.grow, Nat.max_eq_left h]

theorem Memory.wf_grow {m : Memory} (h : m.wf) (n : Nat) : (m.grow n).wf :=
  ⟨h.1, fun c hc => ⟨lt_of_lt_of_le (h.2 c hc).1 (Nat.le_max_left _ _), (h.2 c hc).2⟩⟩

/-! ### Stores -/

@[simp] theorem Memory.len_set (m : Memory) (a : Nat) (v : Int) : (m.set a v).len = max m.len (a + 1) := rfl

/-- An address below every listed one is not listed. -/
theorem cellAt_eq_zero_of_lt : ∀ {cs : List Cell} {a : Nat}, (∀ c ∈ cs, a < c.1) → cellAt cs a = 0
  | [], _, _ => rfl
  | c :: cs, a, h => by
    have hc : a < c.1 := h c (by simp)
    have ht : cellAt cs a = 0 := cellAt_eq_zero_of_lt fun d hd => h d (by simp [hd])
    simp [cellAt, Nat.ne_of_gt hc, ht]

theorem cellAt_setCell_ne : ∀ (cs : List Cell) (a : Nat) (v : Int) (b : Nat), b ≠ a →
    cellAt (setCell cs a v) b = cellAt cs b
  | [], a, v, b, hb => by
    by_cases hv : v = 0 <;> simp [setCell, hv, cellAt, Ne.symm hb]
  | c :: cs, a, v, b, hb => by
    have ih := cellAt_setCell_ne cs a v b hb
    by_cases h1 : a < c.1
    · by_cases hv : v = 0 <;> simp [setCell, h1, hv, cellAt, Ne.symm hb]
    · by_cases h2 : a = c.1
      · have hc : c.1 ≠ b := by rw [← h2]; exact Ne.symm hb
        by_cases hv : v = 0 <;> simp [setCell, h2, hv, cellAt, hc]
      · simp [setCell, h1, h2, cellAt, ih]

theorem cellAt_setCell_self : ∀ (cs : List Cell) (a : Nat) (v : Int),
    cs.Pairwise (fun c d => c.1 < d.1) → cellAt (setCell cs a v) a = v
  | [], a, v, _ => by
    by_cases hv : v = 0 <;> simp [setCell, hv, cellAt]
  | c :: cs, a, v, h => by
    obtain ⟨hc, hs⟩ := List.pairwise_cons.1 h
    have ih := cellAt_setCell_self cs a v hs
    by_cases h1 : a < c.1
    · have h0 : cellAt cs a = 0 := cellAt_eq_zero_of_lt fun d hd => lt_trans h1 (hc d hd)
      by_cases hv : v = 0 <;> simp [setCell, h1, hv, cellAt, Nat.ne_of_gt h1, h0]
    · by_cases h2 : a = c.1
      · subst h2
        have h0 : cellAt cs c.1 = 0 := cellAt_eq_zero_of_lt hc
        by_cases hv : v = 0 <;> simp [setCell, hv, cellAt, h0]
      · simp [setCell, h1, h2, cellAt, Ne.symm h2, ih]

/-- A store leaves every other cell alone. -/
theorem Memory.get_set_ne (m : Memory) {a b : Nat} (v : Int) (h : b ≠ a) : (m.set a v).get b = m.get b :=
  cellAt_setCell_ne m.cells a v b h

/-- A store is read back whole. -/
theorem Memory.get_set_self {m : Memory} (h : m.wf) (a : Nat) (v : Int) : (m.set a v).get a = v :=
  cellAt_setCell_self m.cells a v h.1

theorem Memory.get_set {m : Memory} (h : m.wf) (a : Nat) (v : Int) (b : Nat) :
    (m.set a v).get b = if b = a then v else m.get b := by
  by_cases hb : b = a
  · simp [hb, Memory.get_set_self h]
  · simp [hb, Memory.get_set_ne m v hb]

/-- The cells of a store come from the store or were there before. -/
theorem mem_setCell : ∀ {cs : List Cell} {a : Nat} {v : Int} {d : Cell}, d ∈ setCell cs a v →
    (d = (a, v) ∧ v ≠ 0) ∨ d ∈ cs
  | [], a, v, d, h => by
    by_cases hv : v = 0
    · simp [setCell, hv] at h
    · simp [setCell, hv] at h; exact .inl ⟨h, hv⟩
  | c :: cs, a, v, d, h => by
    simp only [setCell] at h
    split at h
    · split at h
      · exact .inr h
      · rcases List.mem_cons.1 h with h | h
        · exact .inl ⟨h, ‹_›⟩
        · exact .inr h
    · split at h
      · split at h
        · exact .inr (List.mem_cons_of_mem _ h)
        · rcases List.mem_cons.1 h with h | h
          · exact .inl ⟨h, ‹_›⟩
          · exact .inr (List.mem_cons_of_mem _ h)
      · rcases List.mem_cons.1 h with h | h
        · exact .inr (by simp [h])
        · rcases mem_setCell h with h | h
          · exact .inl h
          · exact .inr (List.mem_cons_of_mem _ h)

theorem pairwise_setCell : ∀ {cs : List Cell} (a : Nat) (v : Int),
    cs.Pairwise (fun c d => c.1 < d.1) → (setCell cs a v).Pairwise (fun c d => c.1 < d.1)
  | [], a, v, _ => by
    by_cases hv : v = 0 <;> simp [setCell, hv]
  | c :: cs, a, v, h => by
    obtain ⟨hc, hs⟩ := List.pairwise_cons.1 h
    simp only [setCell]
    split
    case isTrue h1 =>
      split
      · exact h
      · refine List.pairwise_cons.2 ⟨fun d hd => ?_, h⟩
        rcases List.mem_cons.1 hd with rfl | hd
        · exact h1
        · exact lt_trans h1 (hc d hd)
    case isFalse h1 =>
      split
      case isTrue h2 =>
        split
        · exact hs
        · exact List.pairwise_cons.2 ⟨fun d hd => by simpa [h2] using hc d hd, hs⟩
      case isFalse h2 =>
        refine List.pairwise_cons.2 ⟨fun d hd => ?_, pairwise_setCell a v hs⟩
        rcases mem_setCell hd with ⟨rfl, -⟩ | hd
        · exact lt_of_le_of_ne (Nat.le_of_not_lt h1) (Ne.symm h2)
        · exact hc d hd

/-- A store keeps the canonical form. -/
theorem Memory.wf_set {m : Memory} (h : m.wf) (a : Nat) (v : Int) : (m.set a v).wf := by
  refine ⟨pairwise_setCell a v h.1, fun c hc => ?_⟩
  rcases mem_setCell hc with ⟨rfl, hv⟩ | hc
  · exact ⟨by simp, hv⟩
  · exact ⟨lt_of_lt_of_le (h.2 c hc).1 (Nat.le_max_left _ _), (h.2 c hc).2⟩

/-- Storing a run of words keeps the canonical form. -/
theorem Memory.wf_store : ∀ (ws : List Int) {m : Memory} (a : Nat), m.wf → (m.store a ws).wf
  | [], _, _, h => h
  | w :: ws, _, a, h => Memory.wf_store ws (a + 1) (Memory.wf_set h a w)

theorem Memory.wf_empty : Memory.empty.wf := ⟨List.Pairwise.nil, fun _ h => nomatch h⟩

/-- The memory of a loaded program is in canonical form. -/
theorem Memory.wf_ofProgram (program : List Int) : (Memory.ofProgram program).wf :=
  Memory.wf_store program 0 Memory.wf_empty

/-- A canonical memory reads 0 at and beyond its end. -/
theorem Memory.get_of_len_le {m : Memory} (h : m.wf) {a : Nat} (ha : m.len ≤ a) : m.get a = 0 := by
  obtain ⟨n, cs⟩ := m
  have : ∀ cs : List Cell, (∀ c ∈ cs, c.1 < n) → cellAt cs a = 0 := by
    intro cs
    induction cs with
    | nil => intro _; rfl
    | cons c cs ih =>
      intro hc
      have h1 : c.1 ≠ a := Nat.ne_of_lt (lt_of_lt_of_le (hc c (by simp)) ha)
      simp [cellAt, h1, ih fun d hd => hc d (by simp [hd])]
  exact this cs fun c hc => (h.2 c hc).1

/-- The length after storing a run of words. -/
theorem Memory.len_store : ∀ (ws : List Int) (m : Memory) (a : Nat),
    (m.store a ws).len = if ws = [] then m.len else max m.len (a + ws.length)
  | [], m, a => by simp [Memory.store]
  | w :: ws, m, a => by
    simp only [Memory.store, Memory.len_store ws]
    split <;> simp [*]
    omega

/-- What a cell reads as after storing a run of words: the word that landed there, or what it read as before. -/
theorem Memory.get_store : ∀ (ws : List Int) {m : Memory} (a : Nat), m.wf → ∀ x,
    (m.store a ws).get x = if a ≤ x ∧ x < a + ws.length then ws.getD (x - a) 0 else m.get x
  | [], m, a, _, x => by simp [Memory.store]
  | w :: ws, m, a, h, x => by
    simp only [Memory.store, Memory.get_store ws (a + 1) (Memory.wf_set h a w), Memory.get_set h]
    by_cases hx : x = a
    · subst hx
      simp
    · by_cases h1 : a + 1 ≤ x ∧ x < a + 1 + ws.length
      · have h2 : a ≤ x ∧ x < a + (w :: ws).length := by simp; omega
        rw [if_pos h1, if_pos h2, show x - a = (x - (a + 1)) + 1 by omega]
        rfl
      · have h2 : ¬ (a ≤ x ∧ x < a + (w :: ws).length) := by simp; omega
        rw [if_neg h1, if_neg h2, if_neg hx]

end Sys2Proof.Machine
end

