-- ==== Sys2Proof/Laws/State.lean ====
section
/-! SUPPORT. One lemma per field per update of the state, each true by definition, so that no later proof unfolds a
record update. -/

namespace Sys2Proof.Machine

/-! ### withMem -/

@[simp] theorem State.withMem_mem (s : State) (m : Memory) : (s.withMem m).mem = m := rfl
@[simp] theorem State.withMem_ip (s : State) (m : Memory) : (s.withMem m).ip = s.ip := rfl
@[simp] theorem State.withMem_rb (s : State) (m : Memory) : (s.withMem m).rb = s.rb := rfl
@[simp] theorem State.withMem_inq (s : State) (m : Memory) : (s.withMem m).inq = s.inq := rfl
@[simp] theorem State.withMem_outq (s : State) (m : Memory) : (s.withMem m).outq = s.outq := rfl
@[simp] theorem State.withMem_status (s : State) (m : Memory) : (s.withMem m).status = s.status := rfl
@[simp] theorem State.withMem_cause (s : State) (m : Memory) : (s.withMem m).cause = s.cause := rfl
@[simp] theorem State.withMem_interactive (s : State) (m : Memory) : (s.withMem m).interactive = s.interactive := rfl
@[simp] theorem State.withMem_cfg (s : State) (m : Memory) : (s.withMem m).cfg = s.cfg := rfl
@[simp] theorem State.withMem_drawn (s : State) (m : Memory) : (s.withMem m).drawn = s.drawn := rfl

/-! ### complete -/

@[simp] theorem State.complete_mem (s : State) (a : Nat) : (s.complete a).mem = s.mem := rfl
@[simp] theorem State.complete_ip (s : State) (a : Nat) : (s.complete a).ip = a := rfl
@[simp] theorem State.complete_rb (s : State) (a : Nat) : (s.complete a).rb = s.rb := rfl
@[simp] theorem State.complete_inq (s : State) (a : Nat) : (s.complete a).inq = s.inq := rfl
@[simp] theorem State.complete_outq (s : State) (a : Nat) : (s.complete a).outq = s.outq := rfl
@[simp] theorem State.complete_status (s : State) (a : Nat) : (s.complete a).status = .running := rfl
@[simp] theorem State.complete_cause (s : State) (a : Nat) : (s.complete a).cause = s.cause := rfl
@[simp] theorem State.complete_interactive (s : State) (a : Nat) : (s.complete a).interactive = s.interactive := rfl
@[simp] theorem State.complete_cfg (s : State) (a : Nat) : (s.complete a).cfg = s.cfg := rfl
@[simp] theorem State.complete_drawn (s : State) (a : Nat) : (s.complete a).drawn = s.drawn := rfl

/-! ### halt -/

@[simp] theorem State.halt_mem (s : State) : (s.halt).mem = s.mem := rfl
@[simp] theorem State.halt_ip (s : State) : (s.halt).ip = s.ip := rfl
@[simp] theorem State.halt_rb (s : State) : (s.halt).rb = s.rb := rfl
@[simp] theorem State.halt_inq (s : State) : (s.halt).inq = s.inq := rfl
@[simp] theorem State.halt_outq (s : State) : (s.halt).outq = s.outq := rfl
@[simp] theorem State.halt_status (s : State) : (s.halt).status = .halted := rfl
@[simp] theorem State.halt_cause (s : State) : (s.halt).cause = s.cause := rfl
@[simp] theorem State.halt_interactive (s : State) : (s.halt).interactive = s.interactive := rfl
@[simp] theorem State.halt_cfg (s : State) : (s.halt).cfg = s.cfg := rfl
@[simp] theorem State.halt_drawn (s : State) : (s.halt).drawn = s.drawn := rfl

/-! ### suspend -/

@[simp] theorem State.suspend_mem (s : State) : (s.suspend).mem = s.mem := rfl
@[simp] theorem State.suspend_ip (s : State) : (s.suspend).ip = s.ip := rfl
@[simp] theorem State.suspend_rb (s : State) : (s.suspend).rb = s.rb := rfl
@[simp] theorem State.suspend_inq (s : State) : (s.suspend).inq = s.inq := rfl
@[simp] theorem State.suspend_outq (s : State) : (s.suspend).outq = s.outq := rfl
@[simp] theorem State.suspend_status (s : State) : (s.suspend).status = .suspended := rfl
@[simp] theorem State.suspend_cause (s : State) : (s.suspend).cause = s.cause := rfl
@[simp] theorem State.suspend_interactive (s : State) : (s.suspend).interactive = s.interactive := rfl
@[simp] theorem State.suspend_cfg (s : State) : (s.suspend).cfg = s.cfg := rfl
@[simp] theorem State.suspend_drawn (s : State) : (s.suspend).drawn = s.drawn := rfl

/-! ### raise -/

@[simp] theorem State.raise_mem (s : State) (e : Raised) : (s.raise e).mem = s.mem := rfl
@[simp] theorem State.raise_ip (s : State) (e : Raised) : (s.raise e).ip = s.ip := rfl
@[simp] theorem State.raise_rb (s : State) (e : Raised) : (s.raise e).rb = s.rb := rfl
@[simp] theorem State.raise_inq (s : State) (e : Raised) : (s.raise e).inq = s.inq := rfl
@[simp] theorem State.raise_outq (s : State) (e : Raised) : (s.raise e).outq = s.outq := rfl
@[simp] theorem State.raise_status (s : State) (e : Raised) : (s.raise e).status = .failed := rfl
@[simp] theorem State.raise_cause (s : State) (e : Raised) : (s.raise e).cause = some { what := e, faultIp := s.ip, word := s.opcodeWord } := rfl
@[simp] theorem State.raise_interactive (s : State) (e : Raised) : (s.raise e).interactive = s.interactive := rfl
@[simp] theorem State.raise_cfg (s : State) (e : Raised) : (s.raise e).cfg = s.cfg := rfl
@[simp] theorem State.raise_drawn (s : State) (e : Raised) : (s.raise e).drawn = s.drawn := rfl

/-! ### pushIn -/

@[simp] theorem State.pushIn_mem (s : State) (v : Int) : (s.pushIn v).mem = s.mem := rfl
@[simp] theorem State.pushIn_ip (s : State) (v : Int) : (s.pushIn v).ip = s.ip := rfl
@[simp] theorem State.pushIn_rb (s : State) (v : Int) : (s.pushIn v).rb = s.rb := rfl
@[simp] theorem State.pushIn_inq (s : State) (v : Int) : (s.pushIn v).inq = s.inq ++ [v] := rfl
@[simp] theorem State.pushIn_outq (s : State) (v : Int) : (s.pushIn v).outq = s.outq := rfl
@[simp] theorem State.pushIn_status (s : State) (v : Int) : (s.pushIn v).status = s.status := rfl
@[simp] theorem State.pushIn_cause (s : State) (v : Int) : (s.pushIn v).cause = s.cause := rfl
@[simp] theorem State.pushIn_interactive (s : State) (v : Int) : (s.pushIn v).interactive = s.interactive := rfl
@[simp] theorem State.pushIn_cfg (s : State) (v : Int) : (s.pushIn v).cfg = s.cfg := rfl
@[simp] theorem State.pushIn_drawn (s : State) (v : Int) : (s.pushIn v).drawn = s.drawn := rfl

/-! ### load -/

@[simp] theorem State.load_mem (s : State) (p : List Int) (b : Bool) : (s.load p b).mem = Memory.ofProgram p := rfl
@[simp] theorem State.load_ip (s : State) (p : List Int) (b : Bool) : (s.load p b).ip = 0 := rfl
@[simp] theorem State.load_rb (s : State) (p : List Int) (b : Bool) : (s.load p b).rb = 0 := rfl
@[simp] theorem State.load_inq (s : State) (p : List Int) (b : Bool) : (s.load p b).inq = [] := rfl
@[simp] theorem State.load_outq (s : State) (p : List Int) (b : Bool) : (s.load p b).outq = [] := rfl
@[simp] theorem State.load_status (s : State) (p : List Int) (b : Bool) : (s.load p b).status = .ready := rfl
@[simp] theorem State.load_cause (s : State) (p : List Int) (b : Bool) : (s.load p b).cause = none := rfl
@[simp] theorem State.load_interactive (s : State) (p : List Int) (b : Bool) : (s.load p b).interactive = b := rfl
@[simp] theorem State.load_cfg (s : State) (p : List Int) (b : Bool) : (s.load p b).cfg = s.cfg := rfl
@[simp] theorem State.load_drawn (s : State) (p : List Int) (b : Bool) : (s.load p b).drawn = s.drawn := rfl

/-! ### Composed updates -/

@[simp] theorem State.withMem_withMem (s : State) (m n : Memory) : (s.withMem m).withMem n = s.withMem n := rfl
@[simp] theorem State.withMem_self (s : State) : s.withMem s.mem = s := rfl

/-- The opcode word looks at nothing but `ip` and memory. -/
theorem State.opcodeWord_congr {s t : State} (hip : t.ip = s.ip) (hm : t.mem = s.mem) :
    t.opcodeWord = s.opcodeWord := by
  simp [State.opcodeWord, hip, hm]

theorem State.opcodeWord_eq_some {s : State} {w : Int} :
    s.opcodeWord = some w ↔ s.ip < s.mem.len ∧ s.mem.get s.ip = w := by
  simp [State.opcodeWord]

theorem State.opcodeWord_eq_none {s : State} : s.opcodeWord = none ↔ s.mem.len ≤ s.ip := by
  simp [State.opcodeWord]

end Sys2Proof.Machine
end

