-- ==== Sys2Proof/Laws/Operands.lean ====
section
/-! SUPPORT. One spec lemma per shared operation: each says everything the operation can answer, in the pure terms of
Safety.lean, so that no proof unfolds the operation. -/

namespace Sys2Proof.Machine

/-! ### Accesses -/

/-- Everything the access check can answer. -/
theorem State.checkAccess_eq (s : State) (a : Int) :
    s.checkAccess a = match s.accessFault a with
      | some e => .error e
      | none => .ok a.toNat := by
  unfold State.checkAccess State.accessFault
  split <;> [rfl; (split <;> rfl)]

/-- Everything `MemRead` can answer (R31). -/
theorem State.memRead_eq (s : State) (a : Int) :
    s.memRead a = match s.accessFault a with
      | some e => .error e
      | none => .ok (s.mem.get a.toNat, s.withMem (s.mem.grow (a.toNat + 1))) := by
  unfold State.memRead
  rw [State.checkAccess_eq]
  cases s.accessFault a <;> rfl

/-- Everything `MemWrite` can answer (R32). -/
theorem State.memWrite_eq (s : State) (a : Int) (v : Int) :
    s.memWrite a v = match s.accessFault a with
      | some e => .error e
      | none => .ok (s.withMem (s.mem.set a.toNat v)) := by
  unfold State.memWrite
  rw [State.checkAccess_eq]
  cases s.accessFault a <;> rfl

theorem admits_mono {l : Option Nat} {n k : Nat} (h : n ≤ k) (hk : admits l k = true) : admits l n = true := by
  cases l with
  | none => rfl
  | some l => simp [admits] at *; omega

/-- When an access is faultless: the address exists or may come to exist (R34, R149). -/
theorem State.accessFault_eq_none {s : State} {a : Int} :
    s.accessFault a = none ↔ 0 ≤ a ∧ (a.toNat < s.mem.len ∨ admits s.cfg.memLimit (a.toNat + 1) = true) := by
  unfold State.accessFault
  by_cases ha : a < 0
  · simp [ha]
  · by_cases hl : s.mem.len ≤ a.toNat
    · have hl' : ¬ a.toNat < s.mem.len := Nat.not_lt.2 hl
      cases admits s.cfg.memLimit (a.toNat + 1) <;> simp only [ha, hl, hl', Int.not_lt.1 ha] <;> simp
    · simp [ha, hl, Int.not_lt.1 ha, Nat.lt_of_not_le hl]

/-- A read or write of an address that faultless growth has reached needs no more check. -/
theorem State.accessFault_grow {s : State} {n : Nat} (h : n ≤ s.mem.len ∨ admits s.cfg.memLimit n = true) (a : Int) :
    (s.withMem (s.mem.grow n)).accessFault a = s.accessFault a := by
  unfold State.accessFault
  split
  · rfl
  · simp only [State.withMem_mem, State.withMem_cfg, Memory.len_grow]
    by_cases hl : s.mem.len ≤ a.toNat
    · by_cases hn : n ≤ a.toNat
      · simp [hl, hn]
      · have hm : admits s.cfg.memLimit (a.toNat + 1) = true := by
          rcases h with h | h
          · omega
          · exact admits_mono (by omega) h
        simp [hm]
    · have : ¬ max s.mem.len n ≤ a.toNat := by omega
      simp [hl, this]

/-! ### Growth changes no parameter -/

@[simp] theorem State.paramWord_grow (s : State) (n k : Nat) :
    (s.withMem (s.mem.grow n)).paramWord k = s.paramWord k := rfl

@[simp] theorem State.operandAddress_grow (s : State) (n k : Nat) (m : Mode) :
    (s.withMem (s.mem.grow n)).operandAddress k m = s.operandAddress k m := rfl

@[simp] theorem State.operandValue_grow (s : State) (n k : Nat) (m : Mode) :
    (s.withMem (s.mem.grow n)).operandValue k m = s.operandValue k m := rfl

@[simp] theorem State.reach_grow (s : State) (n k : Nat) (m : Mode) :
    (s.withMem (s.mem.grow n)).reach k m = s.reach k m := rfl

theorem State.cellFault_grow {s : State} {n : Nat} (h : n ≤ s.mem.len ∨ admits s.cfg.memLimit n = true) (k : Nat)
    (m : Mode) : (s.withMem (s.mem.grow n)).cellFault k m = s.cellFault k m := by
  unfold State.cellFault
  rw [State.operandAddress_grow]
  cases s.operandAddress k m with
  | none => rfl
  | some a => exact State.accessFault_grow h a

theorem State.readFault_grow {s : State} {n : Nat} (h : n ≤ s.mem.len ∨ admits s.cfg.memLimit n = true) (k : Nat)
    (m : Mode) : (s.withMem (s.mem.grow n)).readFault k m = s.readFault k m := by
  simp [State.readFault, State.cellFault_grow h, State.accessFault_grow h]

theorem State.targetFault_grow {s : State} {n : Nat} (h : n ≤ s.mem.len ∨ admits s.cfg.memLimit n = true) (k : Nat)
    (m : Mode) : (s.withMem (s.mem.grow n)).targetFault k m = s.targetFault k m := by
  simp [State.targetFault, State.accessFault_grow h]

theorem State.admits_of_accessFault {s : State} {a : Int} (h : s.accessFault a = none) :
    a.toNat + 1 ≤ s.mem.len ∨ admits s.cfg.memLimit (a.toNat + 1) = true :=
  (State.accessFault_eq_none.1 h).2.imp Nat.succ_le_of_lt id

theorem State.admits_max {s : State} {n k : Nat} (hn : n ≤ s.mem.len ∨ admits s.cfg.memLimit n = true)
    (hk : k ≤ s.mem.len ∨ admits s.cfg.memLimit k = true) :
    max n k ≤ s.mem.len ∨ admits s.cfg.memLimit (max n k) = true := by
  rcases Nat.le_total n k with h | h
  · rwa [Nat.max_eq_right h]
  · rwa [Nat.max_eq_left h]

theorem toNat_ip_add (ip : Nat) (k : Nat) : ((ip : Int) + (k : Int)).toNat = ip + k := by omega

/-- A faultless read parameter's reach is within what the limit admits. -/
theorem State.admits_reach {s : State} {k : Nat} {m : Mode} (hw : s.accessFault (s.ip + k) = none)
    (hc : s.cellFault k m = none) : s.reach k m ≤ s.mem.len ∨ admits s.cfg.memLimit (s.reach k m) = true := by
  have h1 := State.admits_of_accessFault hw
  rw [toNat_ip_add] at h1
  unfold State.reach
  unfold State.cellFault at hc
  cases ha : s.operandAddress k m with
  | none => exact h1
  | some a =>
    rw [ha] at hc
    exact State.admits_max h1 (State.admits_of_accessFault hc)

/-! ### The resolvers -/

/-- Everything `ReadOperand` can answer (R74). -/
theorem State.readOperand_eq (s : State) (k : Nat) (m : Mode) :
    s.readOperand k m = match s.readFault k m with
      | some e => .error e
      | none => .ok (s.operandValue k m, s.withMem (s.mem.grow (s.reach k m))) := by
  unfold State.readOperand State.readFault
  rw [State.memRead_eq]
  cases hw : s.accessFault (s.ip + k) with
  | some e => rfl
  | none =>
    have hg := State.admits_of_accessFault hw
    rw [toNat_ip_add] at hg
    have hp : s.mem.get (s.ip + k) = s.paramWord k := rfl
    cases m with
    | position =>
      simp only [Option.none_or, modeFault, State.cellFault, State.operandAddress, State.memRead_eq, toNat_ip_add, hp,
        State.accessFault_grow hg]
      cases s.accessFault (s.paramWord k) <;> simp [State.operandValue, State.operandAddress, State.reach]
    | immediate =>
      simp [modeFault, State.cellFault, State.operandAddress, toNat_ip_add, State.operandValue, State.paramWord,
        State.reach]
    | relative =>
      simp only [Option.none_or, modeFault, State.cellFault, State.operandAddress, State.memRead_eq, toNat_ip_add, hp,
        State.accessFault_grow hg, State.withMem_rb]
      cases s.accessFault (s.rb + s.paramWord k) <;> simp [State.operandValue, State.operandAddress, State.reach]
    | illegal d => simp [modeFault]

/-- Everything `WriteTarget` can answer (R75); the address of a legal mode exists. -/
theorem State.writeTarget_eq (s : State) (k : Nat) (m : Mode) :
    s.writeTarget k m = match s.targetFault k m with
      | some e => .error e
      | none => .ok ((s.operandAddress k m).getD 0, s.withMem (s.mem.grow (s.ip + k + 1))) := by
  unfold State.writeTarget State.targetFault
  rw [State.memRead_eq]
  cases hw : s.accessFault (s.ip + k) with
  | some e => rfl
  | none =>
    simp only [toNat_ip_add, Option.none_or]
    cases m <;> simp [modeFault, State.operandAddress, State.paramWord]

/-- A write parameter without a mode fault names an address. -/
theorem State.operandAddress_of_targetFault {s : State} {k : Nat} {m : Mode} (h : s.targetFault k m = none) :
    ∃ d, s.operandAddress k m = some d := by
  unfold State.targetFault at h
  cases m <;> simp_all [modeFault, State.operandAddress]

theorem State.readFault_parts {s : State} {k : Nat} {m : Mode} (h : s.readFault k m = none) :
    s.accessFault (s.ip + k) = none ∧ modeFault .read k m = none ∧ s.cellFault k m = none := by
  simpa [State.readFault] using h

theorem State.targetFault_parts {s : State} {k : Nat} {m : Mode} (h : s.targetFault k m = none) :
    s.accessFault (s.ip + k) = none ∧ modeFault .write k m = none := by
  simpa [State.targetFault] using h

/-- Everything the resolution of two read parameters can answer. -/
theorem State.resolveTwo_eq (s : State) (m1 m2 : Mode) :
    s.resolveTwo m1 m2 = match (s.readFault 1 m1).or (s.readFault 2 m2) with
      | some e => .error e
      | none => .ok (s.operandValue 1 m1, s.operandValue 2 m2,
          s.withMem (s.mem.grow (max (s.reach 1 m1) (s.reach 2 m2)))) := by
  unfold State.resolveTwo
  rw [State.readOperand_eq]
  cases h1 : s.readFault 1 m1 with
  | some e => rfl
  | none =>
    obtain ⟨hw, -, hc⟩ := State.readFault_parts h1
    simp only [Option.none_or, State.readOperand_eq, State.readFault_grow (State.admits_reach hw hc)]
    cases h2 : s.readFault 2 m2 <;> simp

/-- Everything the resolution of two read parameters and a write parameter can answer. -/
theorem State.resolveThree_eq (s : State) (m1 m2 m3 : Mode) :
    s.resolveThree m1 m2 m3 = match (s.readFault 1 m1).or ((s.readFault 2 m2).or (s.targetFault 3 m3)) with
      | some e => .error e
      | none => .ok (s.operandValue 1 m1, s.operandValue 2 m2, (s.operandAddress 3 m3).getD 0,
          s.withMem (s.mem.grow (max (max (s.reach 1 m1) (s.reach 2 m2)) (s.ip + 3 + 1)))) := by
  unfold State.resolveThree
  rw [State.resolveTwo_eq]
  cases h1 : s.readFault 1 m1 with
  | some e => rfl
  | none =>
    cases h2 : s.readFault 2 m2 with
    | some e => rfl
    | none =>
      obtain ⟨hw1, -, hc1⟩ := State.readFault_parts h1
      obtain ⟨hw2, -, hc2⟩ := State.readFault_parts h2
      have hg := State.admits_max (State.admits_reach hw1 hc1) (State.admits_reach hw2 hc2)
      simp only [Option.none_or, State.writeTarget_eq, State.targetFault_grow hg]
      cases h3 : s.targetFault 3 m3 <;> simp

/-- The state a faultless binary instruction leaves: the store at `d` in memory extended to its reach. -/
def State.stored (s : State) (d : Int) (v : Int) (n ip : Nat) : State :=
  (s.withMem ((s.mem.grow n).set d.toNat v)).complete ip

/-- Everything an instruction with two read parameters and a write parameter can answer (R90, R91, R120, R121). -/
theorem State.binaryOp_eq (s : State) (f : Int → Int → Int) (m1 m2 m3 : Mode) :
    s.binaryOp f m1 m2 m3 = match s.binaryFault m1 m2 m3 with
      | some e => .error e
      | none => .ok (s.stored ((s.operandAddress 3 m3).getD 0) (f (s.operandValue 1 m1) (s.operandValue 2 m2))
          (max (max (s.reach 1 m1) (s.reach 2 m2)) (s.ip + 3 + 1)) (s.ip + 4)) := by
  unfold State.binaryOp State.binaryFault
  rw [State.resolveThree_eq]
  cases h1 : s.readFault 1 m1 with
  | some e => rfl
  | none =>
    cases h2 : s.readFault 2 m2 with
    | some e => rfl
    | none =>
      cases h3 : s.targetFault 3 m3 with
      | some e => rfl
      | none =>
        obtain ⟨hw1, -, hc1⟩ := State.readFault_parts h1
        obtain ⟨hw2, -, hc2⟩ := State.readFault_parts h2
        have h3w := State.admits_of_accessFault (State.targetFault_parts h3).1
        rw [toNat_ip_add] at h3w
        have hg := State.admits_max (State.admits_max (State.admits_reach hw1 hc1) (State.admits_reach hw2 hc2)) h3w
        obtain ⟨d, hd⟩ := State.operandAddress_of_targetFault h3
        simp only [Option.none_or, hd, Option.getD_some, State.memWrite_eq, State.accessFault_grow hg,
          State.cellFault]
        cases s.accessFault d <;> rfl

/-! ### The instruction bodies -/

/-- Everything the body of an Input with value `v` can answer (R100); `s` has the value already taken. -/
theorem State.inputValue_eq (s : State) (m1 : Mode) (v : Int) :
    s.inputValue m1 v = match (s.targetFault 1 m1).or (s.cellFault 1 m1) with
      | some e => .error e
      | none => .ok (s.stored ((s.operandAddress 1 m1).getD 0) v (s.ip + 1 + 1) (s.ip + 2)) := by
  unfold State.inputValue
  rw [State.writeTarget_eq]
  cases h1 : s.targetFault 1 m1 with
  | some e => rfl
  | none =>
    have h1w := State.admits_of_accessFault (State.targetFault_parts h1).1
    rw [toNat_ip_add] at h1w
    obtain ⟨d, hd⟩ := State.operandAddress_of_targetFault h1
    simp only [Option.none_or, hd, Option.getD_some, State.memWrite_eq, State.accessFault_grow h1w,
      State.cellFault]
    cases s.accessFault d <;> rfl

/-- Everything the body of an Output can answer (R101). -/
theorem State.outputOp_eq (s : State) (m1 : Mode) :
    s.outputOp m1 = match firstFault (.output m1) s with
      | some e => .error e
      | none => .ok (({ s.withMem (s.mem.grow (s.reach 1 m1)) with
          outq := s.outq ++ [s.operandValue 1 m1] } : State).complete (s.ip + 2)) := by
  unfold State.outputOp
  rw [State.readOperand_eq]
  simp only [firstFault]
  cases h1 : s.readFault 1 m1 with
  | some e => rfl
  | none =>
    simp only [State.pushOut, State.withMem_cfg, State.withMem_outq]
    by_cases hq : admits s.cfg.outqLimit (s.outq.length + 1) = true <;> simp [hq]

/-- Everything the body of a conditional jump can answer (R110, R111, R112). -/
theorem State.jumpOp_eq (s : State) (taken : Int → Bool) (m1 m2 : Mode) :
    s.jumpOp taken m1 m2 = match s.jumpFault taken m1 m2 with
      | some e => .error e
      | none => .ok ((s.withMem (s.mem.grow (max (s.reach 1 m1) (s.reach 2 m2)))).complete
          (if taken (s.operandValue 1 m1) then (s.operandValue 2 m2).toNat else s.ip + 3)) := by
  unfold State.jumpOp State.jumpFault
  rw [State.resolveTwo_eq]
  cases h1 : s.readFault 1 m1 with
  | some e => rfl
  | none =>
    cases h2 : s.readFault 2 m2 with
    | some e => rfl
    | none =>
      by_cases ht : taken (s.operandValue 1 m1) = true
      · by_cases hn : s.operandValue 2 m2 < 0 <;> simp [ht, hn]
      · simp [ht]

/-- Everything the body of a base adjustment can answer (R130). -/
theorem State.adjustBaseOp_eq (s : State) (m1 : Mode) :
    s.adjustBaseOp m1 = match s.readFault 1 m1 with
      | some e => .error e
      | none => .ok (({ s.withMem (s.mem.grow (s.reach 1 m1)) with
          rb := s.rb + s.operandValue 1 m1 } : State).complete (s.ip + 2)) := by
  unfold State.adjustBaseOp
  rw [State.readOperand_eq]
  cases h1 : s.readFault 1 m1 <;> rfl

end Sys2Proof.Machine
end

