-- ==== Sys2Proof/Laws/Exec.lean ====
section
/-! SUPPORT. Once for all: everything an instruction and a step can answer. `exec_eq` says it for every instruction
(fault entry with the first fault, or the state `after`), and `step_eq` for a step; claims cite them and unfold
neither `exec` nor `step`. -/

namespace Sys2Proof.Machine

/-- The memory length that resolving two read parameters and a write parameter needs. -/
def State.reachThree (s : State) (m1 m2 : Mode) : Nat := max (max (s.reach 1 m1) (s.reach 2 m2)) (s.ip + 3 + 1)

/-- The state a faultless instruction with two read parameters and a write parameter leaves. -/
def State.afterBinary (s : State) (f : Int → Int → Int) (m1 m2 m3 : Mode) : State :=
  s.stored ((s.operandAddress 3 m3).getD 0) (f (s.operandValue 1 m1) (s.operandValue 2 m2)) (s.reachThree m1 m2)
    (s.ip + 4)

/-- The state a faultless conditional jump leaves. -/
def State.afterJump (s : State) (taken : Int → Bool) (m1 m2 : Mode) : State :=
  (s.withMem (s.mem.grow (max (s.reach 1 m1) (s.reach 2 m2)))).complete
    (if taken (s.operandValue 1 m1) then (s.operandValue 2 m2).toNat else s.ip + 3)

/-- The state a faultless Input leaves, suspension included. -/
def State.afterInput (s : State) (m1 : Mode) : State :=
  match s.inq with
  | v :: rest =>
    ({ s with inq := rest } : State).stored ((s.operandAddress 1 m1).getD 0) v (s.ip + 1 + 1) (s.ip + 2)
  | [] =>
    if s.interactive then
      ({ s with drawn := s.drawn + 1 } : State).stored ((s.operandAddress 1 m1).getD 0) (Config.promptValue s.drawn)
        (s.ip + 1 + 1) (s.ip + 2)
    else s.suspend

/-- The state an instruction leaves when it meets no fault. -/
def State.after (s : State) (i : Instr) : State :=
  match i with
  | .add m1 m2 m3 => s.afterBinary (fun a b => a + b) m1 m2 m3
  | .multiply m1 m2 m3 => s.afterBinary (fun a b => a * b) m1 m2 m3
  | .input m1 => s.afterInput m1
  | .output m1 =>
    ({ s.withMem (s.mem.grow (s.reach 1 m1)) with outq := s.outq ++ [s.operandValue 1 m1] } : State).complete (s.ip + 2)
  | .jumpIfTrue m1 m2 => s.afterJump (fun c => decide (c ≠ 0)) m1 m2
  | .jumpIfFalse m1 m2 => s.afterJump (fun c => decide (c = 0)) m1 m2
  | .lessThan m1 m2 m3 => s.afterBinary (fun a b => if a < b then 1 else 0) m1 m2 m3
  | .equals m1 m2 m3 => s.afterBinary (fun a b => if a = b then 1 else 0) m1 m2 m3
  | .adjustRelativeBase m1 =>
    ({ s.withMem (s.mem.grow (s.reach 1 m1)) with rb := s.rb + s.operandValue 1 m1 } : State).complete (s.ip + 2)
  | .halt => s.halt

@[simp] theorem truthWord_decide (p : Prop) [Decidable p] : truthWord (decide p) = if p then 1 else 0 := by
  by_cases h : p <;> simp [truthWord, h]

theorem isTrue_eq : isTrue = fun c => decide (c ≠ 0) := rfl

theorem not_isTrue_eq : (fun c => !isTrue c) = fun c => decide (c = 0) := by
  funext c
  by_cases h : c = 0 <;> simp [isTrue, h]

theorem State.settle_binaryOp (s : State) (f : Int → Int → Int) (m1 m2 m3 : Mode) :
    s.settle (s.binaryOp f m1 m2 m3) = .next (match s.binaryFault m1 m2 m3 with
      | some e => s.raise e
      | none => s.afterBinary f m1 m2 m3) := by
  rw [State.binaryOp_eq]
  cases s.binaryFault m1 m2 m3 <;> rfl

theorem State.settle_jumpOp (s : State) (taken : Int → Bool) (m1 m2 : Mode) :
    s.settle (s.jumpOp taken m1 m2) = .next (match s.jumpFault taken m1 m2 with
      | some e => s.raise e
      | none => s.afterJump taken m1 m2) := by
  rw [State.jumpOp_eq]
  cases s.jumpFault taken m1 m2 <;> rfl

theorem execInput_eq (s : State) (m1 : Mode) :
    execInput m1 s = .next (match firstFault (.input m1) s with
      | some e => s.raise e
      | none => s.afterInput m1) := by
  obtain ⟨mem, ip, rb, inq, outq, status, cause, interactive, cfg, drawn⟩ := s
  cases inq with
  | cons v rest =>
    simp only [execInput, firstFault, State.waits, State.inputValue_eq]
    have h1 : State.targetFault ⟨mem, ip, rb, rest, outq, status, cause, interactive, cfg, drawn⟩ 1 m1 =
      State.targetFault ⟨mem, ip, rb, v :: rest, outq, status, cause, interactive, cfg, drawn⟩ 1 m1 := rfl
    have h2 : State.cellFault ⟨mem, ip, rb, rest, outq, status, cause, interactive, cfg, drawn⟩ 1 m1 =
      State.cellFault ⟨mem, ip, rb, v :: rest, outq, status, cause, interactive, cfg, drawn⟩ 1 m1 := rfl
    rw [h1, h2]
    simp only [List.isEmpty_cons, Bool.false_and, Bool.false_eq_true, if_false]
    cases (State.targetFault _ 1 m1).or (State.cellFault _ 1 m1) <;> rfl
  | nil =>
    cases interactive with
    | false => rfl
    | true =>
      simp only [execInput, firstFault, State.waits, State.inputValue_eq]
      have h1 : State.targetFault ⟨mem, ip, rb, [], outq, status, cause, true, cfg, drawn + 1⟩ 1 m1 =
        State.targetFault ⟨mem, ip, rb, [], outq, status, cause, true, cfg, drawn⟩ 1 m1 := rfl
      have h2 : State.cellFault ⟨mem, ip, rb, [], outq, status, cause, true, cfg, drawn + 1⟩ 1 m1 =
        State.cellFault ⟨mem, ip, rb, [], outq, status, cause, true, cfg, drawn⟩ 1 m1 := rfl
      rw [h1, h2]
      simp only [List.isEmpty_nil, Bool.not_true, Bool.and_false, Bool.false_eq_true, if_false, if_true]
      cases (State.targetFault _ 1 m1).or (State.cellFault _ 1 m1) <;> rfl

/-- Everything an instruction can answer: the first fault of R151 enters Failed, and otherwise the pure result. -/
theorem exec_eq (i : Instr) (s : State) :
    exec i s = .next (match firstFault i s with
      | some e => s.raise e
      | none => s.after i) := by
  cases i with
  | add m1 m2 m3 => exact State.settle_binaryOp s _ m1 m2 m3
  | multiply m1 m2 m3 => exact State.settle_binaryOp s _ m1 m2 m3
  | input m1 => exact execInput_eq s m1
  | output m1 =>
    simp only [exec, execOutput, State.outputOp_eq]
    cases firstFault (.output m1) s <;> rfl
  | jumpIfTrue m1 m2 => exact State.settle_jumpOp s _ m1 m2
  | jumpIfFalse m1 m2 =>
    simp only [exec, execJumpIfFalse, not_isTrue_eq]
    exact State.settle_jumpOp s _ m1 m2
  | lessThan m1 m2 m3 =>
    simp only [exec, execLessThan, truthWord_decide]
    exact State.settle_binaryOp s _ m1 m2 m3
  | equals m1 m2 m3 =>
    simp only [exec, execEquals, truthWord_decide]
    exact State.settle_binaryOp s _ m1 m2 m3
  | adjustRelativeBase m1 =>
    simp only [exec, execAdjustRelativeBase, State.adjustBaseOp_eq, firstFault]
    cases s.readFault 1 m1 <;> rfl
  | halt => rfl

/-- An instruction that meets no fault leaves `after`. -/
theorem exec_of_noFault {i : Instr} {s : State} (h : firstFault i s = none) : exec i s = .next (s.after i) := by
  rw [exec_eq, h]

/-- An instruction that meets a fault enters it. -/
theorem exec_of_fault {i : Instr} {s : State} {e : Raised} (h : firstFault i s = some e) :
    exec i s = .next (s.raise e) := by
  rw [exec_eq, h]

/-- Fault entry as claims state it (R150). -/
theorem State.raise_failedWith (s : State) (e : Raised) : FailedWith s (s.raise e) e := ⟨rfl, fun _ => rfl⟩

/-- What an instruction leaves, by cases: it faults, or it meets no fault and leaves `after`. -/
theorem exec_cases {i : Instr} {s t : State} (h : exec i s = .next t) :
    (∃ e, firstFault i s = some e ∧ t = s.raise e) ∨ (firstFault i s = none ∧ t = s.after i) := by
  rw [exec_eq] at h
  obtain rfl := Host.Outcome.next.inj h
  cases firstFault i s with
  | some e => exact .inl ⟨e, rfl, rfl⟩
  | none => exact .inr ⟨rfl, rfl⟩

/-- Everything a step can answer (R70). -/
theorem step_eq (s : State) :
    step s = .next (if s.status.live then
        match s.nextInstr with
        | .error e => s.raise e
        | .ok i => match firstFault i s with
          | some e => s.raise e
          | none => s.after i
      else s) := by
  unfold step
  cases s.status.live with
  | false => rfl
  | true =>
    cases s.nextInstr with
    | error e => rfl
    | ok i => exact exec_eq i s

/-- What a step leaves, by cases: nothing changes, fetch or dispatch faults, or an instruction is executed. -/
theorem step_cases {s t : State} (h : step s = .next t) :
    (s.status.live = false ∧ t = s) ∨
    (s.status.live = true ∧ ∃ e, s.nextInstr = .error e ∧ t = s.raise e) ∨
    (s.status.live = true ∧ ∃ i, s.nextInstr = .ok i ∧ exec i s = .next t) := by
  unfold step at h
  cases hl : s.status.live with
  | false => rw [hl] at h; exact .inl ⟨rfl, (Host.Outcome.next.inj h).symm⟩
  | true =>
    rw [hl] at h
    cases hi : s.nextInstr with
    | error e => rw [hi] at h; exact .inr (.inl ⟨rfl, e, rfl, (Host.Outcome.next.inj h).symm⟩)
    | ok i => rw [hi] at h; exact .inr (.inr ⟨rfl, i, rfl, h⟩)

/-! ### The fields `after` leaves -/

@[simp] theorem State.stored_mem (s : State) (d : Int) (v : Int) (n ip : Nat) :
    (s.stored d v n ip).mem = (s.mem.grow n).set d.toNat v := rfl
@[simp] theorem State.stored_ip (s : State) (d : Int) (v : Int) (n ip : Nat) : (s.stored d v n ip).ip = ip := rfl
@[simp] theorem State.stored_rb (s : State) (d : Int) (v : Int) (n ip : Nat) : (s.stored d v n ip).rb = s.rb := rfl
@[simp] theorem State.stored_inq (s : State) (d : Int) (v : Int) (n ip : Nat) : (s.stored d v n ip).inq = s.inq := rfl
@[simp] theorem State.stored_outq (s : State) (d : Int) (v : Int) (n ip : Nat) :
    (s.stored d v n ip).outq = s.outq := rfl
@[simp] theorem State.stored_status (s : State) (d : Int) (v : Int) (n ip : Nat) :
    (s.stored d v n ip).status = .running := rfl
@[simp] theorem State.stored_cause (s : State) (d : Int) (v : Int) (n ip : Nat) :
    (s.stored d v n ip).cause = s.cause := rfl
@[simp] theorem State.stored_interactive (s : State) (d : Int) (v : Int) (n ip : Nat) :
    (s.stored d v n ip).interactive = s.interactive := rfl
@[simp] theorem State.stored_cfg (s : State) (d : Int) (v : Int) (n ip : Nat) : (s.stored d v n ip).cfg = s.cfg := rfl
@[simp] theorem State.stored_drawn (s : State) (d : Int) (v : Int) (n ip : Nat) :
    (s.stored d v n ip).drawn = s.drawn := rfl

/-- A store as claims state it (R32). -/
theorem State.stored_storesAndAdvances {s : State} (h : s.mem.wf) {d : Int} (hd : 0 ≤ d) (v : Int) (n ip : Nat) :
    StoresAndAdvances s (s.stored d v n ip) d v (max n (d.toNat + 1)) ip := by
  refine ⟨rfl, by simp [Nat.max_assoc], fun x => ?_⟩
  have hx : x = d.toNat ↔ (x : Int) = d := by omega
  simp only [State.stored_mem, Memory.get_set (Memory.wf_grow h n), Memory.get_grow, hx]

/-- The three forms of `after` for Input (R100, R102). -/
theorem State.afterInput_cases (s : State) (m1 : Mode) :
    (∃ v rest, s.inq = v :: rest ∧ s.afterInput m1 =
      ({ s with inq := rest } : State).stored ((s.operandAddress 1 m1).getD 0) v (s.ip + 1 + 1) (s.ip + 2)) ∨
    (s.inq = [] ∧ s.interactive = true ∧ s.afterInput m1 =
      ({ s with drawn := s.drawn + 1 } : State).stored ((s.operandAddress 1 m1).getD 0) (Config.promptValue s.drawn)
        (s.ip + 1 + 1) (s.ip + 2)) ∨
    (s.inq = [] ∧ s.interactive = false ∧ s.afterInput m1 = s.suspend) := by
  unfold State.afterInput
  cases hq : s.inq with
  | cons v rest => exact .inl ⟨v, rest, rfl, rfl⟩
  | nil =>
    cases hi : s.interactive with
    | true => exact .inr (.inl ⟨rfl, rfl, by simp⟩)
    | false => exact .inr (.inr ⟨rfl, rfl, by simp⟩)

end Sys2Proof.Machine
end

