-- ==== Sys2Proof/Laws/PerInstr.lean ====
section
/-! SUPPORT. Facts about each instruction as syntax, one lemma per constructor (LAWS.json names the family). -/

namespace Sys2Proof.Laws.Layout

/-- The layout of an instruction (R50, R56, R65): one opcode word and its parameter words, at most four cells; the
canonical word carries the opcode in its two low decimal digits. -/
def Statement (i : Instr) : Prop :=
  i.length = 1 + i.params.length ∧ 1 ≤ i.length ∧ i.length ≤ 4 ∧ opcodeOf (encodeWord i) = i.opcode

theorem add (a b dest : Mode) : Statement (.add a b dest) :=
  ⟨rfl, by simp [Instr.length, Instr.params],  by simp [Instr.length, Instr.params],
    by simp [opcodeOf, encodeWord, Instr.opcode, Instr.params, modeDigits]; omega⟩

theorem multiply (a b dest : Mode) : Statement (.multiply a b dest) :=
  ⟨rfl, by simp [Instr.length, Instr.params],  by simp [Instr.length, Instr.params],
    by simp [opcodeOf, encodeWord, Instr.opcode, Instr.params, modeDigits]; omega⟩

theorem input (dest : Mode) : Statement (.input dest) :=
  ⟨rfl, by simp [Instr.length, Instr.params],  by simp [Instr.length, Instr.params],
    by simp [opcodeOf, encodeWord, Instr.opcode, Instr.params, modeDigits]⟩

theorem output (a : Mode) : Statement (.output a) :=
  ⟨rfl, by simp [Instr.length, Instr.params],  by simp [Instr.length, Instr.params],
    by simp [opcodeOf, encodeWord, Instr.opcode, Instr.params, modeDigits]⟩

theorem jumpIfTrue (cond target : Mode) : Statement (.jumpIfTrue cond target) :=
  ⟨rfl, by simp [Instr.length, Instr.params],  by simp [Instr.length, Instr.params],
    by simp [opcodeOf, encodeWord, Instr.opcode, Instr.params, modeDigits]; omega⟩

theorem jumpIfFalse (cond target : Mode) : Statement (.jumpIfFalse cond target) :=
  ⟨rfl, by simp [Instr.length, Instr.params],  by simp [Instr.length, Instr.params],
    by simp [opcodeOf, encodeWord, Instr.opcode, Instr.params, modeDigits]; omega⟩

theorem lessThan (a b dest : Mode) : Statement (.lessThan a b dest) :=
  ⟨rfl, by simp [Instr.length, Instr.params],  by simp [Instr.length, Instr.params],
    by simp [opcodeOf, encodeWord, Instr.opcode, Instr.params, modeDigits]; omega⟩

theorem equals (a b dest : Mode) : Statement (.equals a b dest) :=
  ⟨rfl, by simp [Instr.length, Instr.params],  by simp [Instr.length, Instr.params],
    by simp [opcodeOf, encodeWord, Instr.opcode, Instr.params, modeDigits]; omega⟩

theorem adjustRelativeBase (a : Mode) : Statement (.adjustRelativeBase a) :=
  ⟨rfl, by simp [Instr.length, Instr.params],  by simp [Instr.length, Instr.params],
    by simp [opcodeOf, encodeWord, Instr.opcode, Instr.params, modeDigits]⟩

theorem halt : Statement .halt := ⟨rfl, by decide, by decide, by decide⟩

end Sys2Proof.Laws.Layout
end

