-- ==== Sys2Proof/Machine/Assembly.lean ====
section
/-! DEFINITION. The spec's own assembly notation for examples and test programs (R62, D18), as data: what a line of it
assembles to. Labels are left to the writer, who knows the addresses (R61); the notation binds nothing. -/

namespace Sys2Proof.Machine

/-- A parameter: `[n]`, `#n`, `[rb+n]` (R62). -/
inductive Param where
  | pos (n : Int)
  | imm (n : Int)
  | rel (n : Int)
deriving DecidableEq, Repr

/-- The addressing mode a parameter is written in. -/
def Param.mode : Param → Mode
  | .pos _ => .position
  | .imm _ => .immediate
  | .rel _ => .relative

/-- The parameter word (R59). -/
def Param.word : Param → Int
  | .pos n => n
  | .imm n => n
  | .rel n => n

/-- A line of assembly text (R62); the write parameter stands last. -/
inductive Line where
  | add (a b dest : Param)
  | mul (a b dest : Param)
  | inp (dest : Param)
  | out (a : Param)
  | jt (cond target : Param)
  | jf (cond target : Param)
  | lt (a b dest : Param)
  | eq (a b dest : Param)
  | arb (a : Param)
  | hlt
  | data (ns : List Int)
deriving DecidableEq, Repr

/-- The words of a line. -/
def Line.words : Line → List Int
  | .add a b d => encode (.add a.mode b.mode d.mode) [a.word, b.word, d.word]
  | .mul a b d => encode (.multiply a.mode b.mode d.mode) [a.word, b.word, d.word]
  | .inp d => encode (.input d.mode) [d.word]
  | .out a => encode (.output a.mode) [a.word]
  | .jt c t => encode (.jumpIfTrue c.mode t.mode) [c.word, t.word]
  | .jf c t => encode (.jumpIfFalse c.mode t.mode) [c.word, t.word]
  | .lt a b d => encode (.lessThan a.mode b.mode d.mode) [a.word, b.word, d.word]
  | .eq a b d => encode (.equals a.mode b.mode d.mode) [a.word, b.word, d.word]
  | .arb a => encode (.adjustRelativeBase a.mode) [a.word]
  | .hlt => encode .halt []
  | .data ns => ns

/-- A program text: its lines one after another (R61). -/
def assemble (lines : List Line) : List Int := lines.flatMap Line.words

end Sys2Proof.Machine
end

