-- ==== Sys2Proof/Tests/Slice0.lean ====
section
/-! SUPPORT. Tests of the model against the spec's own examples (95_test_vectors.md; each comment names the row), the
smoke test of well-formedness, and, for every obligation with hypotheses, a witness that meets them together. -/

namespace Sys2Proof.Tests

open Sys2Proof.Machine

/-- A core loaded with `words`, then moved to `ip`, `rb` and given input. -/
def cpu (words : List Int) (ip : Nat := 0) (rb : Int := 0) (inq : List Int := []) : State :=
  { State.reset with mem := Memory.ofProgram words, ip := ip, rb := rb, inq := inq }

/-- The state after one step. -/
def next (s : State) : State :=
  match step s with
  | .next t => t
  | .fault _ => s
  | .refused _ => s

/-- The fault record of a core at `ip`. -/
def record (what : Raised) (ip : Nat) (word : Option Int) : Option Cause :=
  some { what := what, faultIp := ip, word := word }

/-! ### Well-formedness -/

/-- The digits 0, 1, 2 have constructors of their own (R55). -/
theorem test_wellFormed_digit_below_three_refused : (Instr.output (.illegal 2)).wellFormed = false := by decide

/-- A mode is one decimal digit (R52). -/
theorem test_wellFormed_digit_above_nine_refused :
    (Instr.add .position .position (.illegal 10)).wellFormed = false := by decide

theorem test_wellFormed_boundaries :
    (Instr.output (.illegal 3)).wellFormed = true ∧ (Instr.output (.illegal 9)).wellFormed = true ∧
    Instr.halt.wellFormed = true := by decide

/-- "legal" of the opcode table: 0, 1, 2 on a read parameter, 0, 2 on a write parameter. -/
theorem test_legal_modes :
    (Instr.add .immediate .relative .relative).legal = true ∧ (Instr.input .immediate).legal = false ∧
    (Instr.output (.illegal 3)).legal = false := by decide

/-! ### Decoding: words written out from the spec (95_test_vectors.md section 2.1) -/

/-- DEC8. -/
theorem test_decode_add : decodeWord 22201 = .ok (.add .relative .relative .relative) := by decide

/-- DEC1. -/
theorem test_decode_multiply : decodeWord 1002 = .ok (.multiply .position .immediate .position) := by decide

/-- DEC6. -/
theorem test_decode_input : decodeWord 203 = .ok (.input .relative) := by decide

/-- DEC4. -/
theorem test_decode_output : decodeWord 204 = .ok (.output .relative) := by decide

/-- J14. -/
theorem test_decode_jumpIfTrue : decodeWord 31105 = .ok (.jumpIfTrue .immediate .immediate) := by decide

/-- J10. -/
theorem test_decode_jumpIfFalse : decodeWord 2206 = .ok (.jumpIfFalse .relative .relative) := by decide

/-- DEC3. -/
theorem test_decode_lessThan : decodeWord 21107 = .ok (.lessThan .immediate .immediate .relative) := by decide

/-- DEC7. -/
theorem test_decode_equals : decodeWord 2208 = .ok (.equals .relative .relative .position) := by decide

/-- DEC5. -/
theorem test_decode_adjustRelativeBase : decodeWord 109 = .ok (.adjustRelativeBase .immediate) := by decide

/-- DEC17. -/
theorem test_decode_halt : decodeWord 11199 = .ok .halt := by decide

/-- DEC22, DEC24, DEC25. -/
theorem test_decode_undefined_modes :
    decodeWord 301 = .ok (.add (.illegal 3) .position .position) ∧
    decodeWord 30001 = .ok (.add .position .position (.illegal 3)) ∧
    decodeWord 903 = .ok (.input (.illegal 9)) :=
  by decide

/-- DEC12, DEC13, DEC14, DEC18. -/
theorem test_decode_unknown :
    decodeWord 0 = .error (.unknownOpcode 0) ∧ decodeWord 10 = .error (.unknownOpcode 10) ∧
    decodeWord 98 = .error (.unknownOpcode 98) ∧ decodeWord 12345 = .error (.unknownOpcode 45) := by decide

/-- DEC28, DEC29, DEC33, DEC31. -/
theorem test_decode_negative :
    decodeWord (-1) = .ok .halt ∧ decodeWord (-99) = .ok (.add .position .position .position) ∧
    decodeWord (-1101) = .ok .halt ∧ decodeWord (-100) = .error (.unknownOpcode 0) := by decide

/-- DEC27, DEC19. -/
theorem test_decode_wide :
    decodeWord 100000000000000000001 = .ok (.add .position .position .position) ∧
    decodeFields 1234599 = { opcode := 99, m1 := 5, m2 := 4, m3 := 3 } := by decide

/-- The canonical word of DEC3, DEC6, DEC10 (R65). -/
theorem test_encode :
    encodeWord (.lessThan .immediate .immediate .relative) = 21107 ∧ encodeWord (.input .relative) = 203 ∧
    encodeWord .halt = 99 := by decide

/-- The listing of S4 (R62). -/
theorem test_assemble :
    assemble [.arb (.imm 1), .out (.rel (-1)), .add (.pos 100) (.imm 1) (.pos 100), .eq (.pos 100) (.imm 16) (.pos 101),
      .jf (.pos 101) (.imm 0), .hlt] = [109, 1, 204, -1, 1001, 100, 1, 100, 1008, 100, 16, 101, 1006, 101, 0, 99] :=
  by decide

/-- The table's `match` values (R64). -/
theorem test_table_word :
    decodeTableWord 8 9 = some (.adjustRelativeBase .position) ∧
    decodeTableWord 16 1005 = some (.jumpIfTrue .position .immediate) ∧
    decodeTableWord 8 10 = none :=
  by decide

/-- The placed word is what the next step runs. -/
theorem test_fetch_word :
    (next (State.reset.withFetchWord 8 99)).status = .halted ∧
    (next (State.reset.withFetchWord 16 104)).outq = [0] ∧
    (next (State.reset.withFetchWord 8 10)).cause = record (.unknownOpcode 10) 0 (some 10) := by decide

/-! ### One step (95_test_vectors.md sections 2.2 to 2.10) -/

/-- A3: all three operands Relative. -/
theorem test_add_relative :
    (next (cpu [22201, 1, 2, 3, 99, 0, 10, 20, 0, 0] 0 5)).mem.toList = [22201, 1, 2, 3, 99, 0, 10, 20, 30, 0] ∧
    (next (cpu [22201, 1, 2, 3, 99, 0, 10, 20, 0, 0] 0 5)).ip = 4 := by decide

/-- A6: reads beyond the end give 0 and extend memory. -/
theorem test_add_beyond_the_end :
    (next (cpu [1, 9, 10, 3])).mem.toList = [1, 9, 10, 0, 0, 0, 0, 0, 0, 0, 0] ∧
    (next (cpu [1, 9, 10, 3])).status = .running := by decide

/-- M2: a 16-digit product. -/
theorem test_multiply_is_exact :
    (next (cpu [1102, 34915192, 34915192, 7, 4, 7, 99, 0])).mem.toList = [1102, 34915192, 34915192, 7, 4, 7, 99, 1219070632396864] :=
  by decide

/-- M7. -/
theorem test_multiply_relative_target :
    (next (cpu [21002, 5, 3, 1, 99, 14] 0 6)).mem.toList = [21002, 5, 3, 1, 99, 14, 0, 42] ∧
    (next (cpu [21002, 5, 3, 1, 99, 14] 0 6)).ip = 4 := by decide

/-- I2, with a second element that stays, as in I1. -/
theorem test_input_relative :
    (next (cpu [203, -2, 99, 0] 0 5 [-7, 8])).mem.toList = [203, -2, 99, -7] ∧
    (next (cpu [203, -2, 99, 0] 0 5 [-7, 8])).inq = [8] := by decide

/-- I5 and I10: the queue is tested first. -/
theorem test_input_suspends_before_its_parameter :
    (next (cpu [103, 50, 99])).status = .suspended ∧
    (next (cpu [103, 50, 99])).mem.toList = [103, 50, 99] ∧
    (next (cpu [103, 50, 99])).ip = 0 := by decide

/-- O3. -/
theorem test_output_relative :
    (next (cpu [204, 1, 99, 0, 88] 0 3)).outq = [88] ∧
    (next (cpu [204, 1, 99, 0, 88] 0 3)).ip = 2 := by decide

/-- O5. -/
theorem test_output_ignores_other_digits :
    (next (cpu [30004, 2, 99])).outq = [99] ∧
    (next (cpu [30004, 2, 99])).status = .running := by decide

/-- J3. -/
theorem test_jumpIfTrue_negative_condition :
    (next (cpu [5, 4, 5, 99, -3, 9])).ip = 9 ∧
    (next (cpu [5, 4, 5, 99, -3, 9])).status = .running := by decide

/-- J11: decision D10. -/
theorem test_jumpIfTrue_resolves_an_untaken_target :
    (next (cpu [5, 9, -4, 99])).cause = record (.negativeAddress (-4)) 0 (some 5) ∧
    (next (cpu [5, 9, -4, 99])).ip = 0 := by decide

/-- J10. -/
theorem test_jumpIfFalse_relative :
    (next (cpu [2206, 1, 2, 99, 0, 0, 9] 0 4)).ip = 9 ∧
    (next (cpu [2206, 1, 2, 99, 0, 0, 9] 0 4)).status = .running := by decide

/-- J9. -/
theorem test_jumpIfFalse_not_taken :
    (next (cpu [1106, 5, 7, 99])).ip = 3 ∧
    (next (cpu [1106, 5, 7, 99])).status = .running := by decide

/-- C1. -/
theorem test_lessThan_is_signed :
    (next (cpu [1107, -2, -1, 5, 99, 9])).mem.toList = [1107, -2, -1, 5, 99, 1] := by decide

/-- C2. -/
theorem test_lessThan_equal_is_not_less :
    (next (cpu [1107, 3, 3, 5, 99, 9])).mem.toList = [1107, 3, 3, 5, 99, 0] := by decide

/-- C6. -/
theorem test_equals_sign_matters :
    (next (cpu [1108, 8, -8, 5, 99, 9])).mem.toList = [1108, 8, -8, 5, 99, 0] := by decide

/-- C10. -/
theorem test_equals_overwrites_its_own_word :
    (next (cpu [2208, 0, 1, 0, 8, 8] 0 4)).mem.toList = [1, 0, 1, 0, 8, 8] ∧
    (next (cpu [2208, 0, 1, 0, 8, 8] 0 4)).ip = 4 := by decide

/-- B4. -/
theorem test_adjustRelativeBase_uses_the_old_base :
    (next (cpu [209, 1, 99, 0, 0, 6] 0 4)).rb = 10 ∧
    (next (cpu [209, 1, 99, 0, 0, 6] 0 4)).ip = 2 := by decide

/-- B2. -/
theorem test_adjustRelativeBase_goes_negative : (next (cpu [109, -7, 99] 0 3)).rb = -4 := by decide

/-- H2. -/
theorem test_halt_keeps_ip :
    (next (cpu [11199])).status = .halted ∧
    (next (cpu [11199])).ip = 0 := by decide

/-- H4. -/
theorem test_halt_is_final : next (next (cpu [99])) = next (cpu [99]) := by decide

/-- A11. -/
theorem test_fault_invalid_write_mode :
    (next (cpu [11101, 3, 4, 0, 99])).cause = record (.invalidWriteMode 3) 0 (some 11101) ∧
    (next (cpu [11101, 3, 4, 0, 99])).status = .failed := by decide

/-- F16. -/
theorem test_fault_discards_growth :
    (next (cpu [1, 20, -1, 0])).cause = record (.negativeAddress (-1)) 0 (some 1) ∧
    (next (cpu [1, 20, -1, 0])).mem.len = 4 := by decide

/-- F14: parameter 1 before parameter 3. -/
theorem test_fault_order :
    (next (cpu [10001, -1, 0, 0])).cause = record (.negativeAddress (-1)) 0 (some 10001) := by decide

/-- F9. -/
theorem test_fault_keeps_the_input :
    (next (cpu [903, 0, 99] 0 0 [1])).cause = record (.invalidMode 1 9) 0 (some 903) ∧
    (next (cpu [903, 0, 99] 0 0 [1])).inq = [1] := by decide

/-- F6. -/
theorem test_fault_ran_off_the_end :
    (next (cpu [1105, 1, 4] 4)).cause = record (.ranOffEnd 4) 4 none ∧
    (next (cpu [1105, 1, 4] 4)).mem.len = 3 := by decide

/-- F13. -/
theorem test_fault_relative_write :
    (next (cpu [21101, 1, 1, 3] 0 (-10))).cause = record (.negativeAddress (-7)) 0 (some 21101) := by decide

/-! ### Strict options and limits (decisions D1, D2, D4) -/

/-- A digit no parameter uses, and a negative word. -/
theorem test_strict_options :
    (decodeFor { strictOpcodeWord := true } 30004).toOption = none ∧
    (decodeFor { strictOpcodeWord := true } 11199).toOption = none ∧
    (decodeFor { negWordFaults := true } (-1)).toOption = none ∧
    (decodeFor {} 30004).toOption = some (.output .position) :=
  by decide

/-- The model's own choice, log entry 6: STRICT_OPCODE_WORD does not concern a negative word. -/
theorem test_strict_option_and_negative_word :
    (decodeFor { strictOpcodeWord := true } (-10000001)).toOption = some .halt := by decide

/-- The model's own choice, log entry 6: the strict fault comes at dispatch. On the default machine it is I3 with a digit that D4 ignores. -/
theorem test_strict_option_before_the_queue_test :
    (next { cpu [10003, 3, 99, 0] with cfg := { strictOpcodeWord := true } }).cause =
      record (.invalidMode 3 1) 0 (some 10003) ∧ (next (cpu [10003, 3, 99, 0])).status = .suspended := by decide

/-- An access one cell past the limit, and the last one within it. -/
theorem test_mem_limit :
    (next { cpu [4, 3, 99] with cfg := { memLimit := some 3 } }).cause = record (.resourceExhausted .memory) 0 (some 4) ∧
    (next { cpu [4, 2, 99] with cfg := { memLimit := some 3 } }).outq = [99] :=
  by decide

/-! ### Host transactions (95_test_vectors.md section 3) -/

/-- RUN4. -/
theorem test_run_suspends_and_resumes :
    (performAll State.reset [.load [3, 0, 99] false, .run 9, .pushIn 5, .run 9]).2 =
      [.done, .status .suspended, .done, .status .halted] := by decide

/-- RUN7, cut to one output. -/
theorem test_pop_out :
    (performAll State.reset [.load [104, 1, 99] false, .run 9, .popOut, .popOut]).2 =
      [.done, .status .halted, .popped (some 1), .popped none] := by decide

/-- Lexicographic order (D24). -/
theorem test_permutations :
    permutations [0, 1, 2] = [[0, 1, 2], [0, 2, 1], [1, 0, 2], [1, 2, 0], [2, 0, 1], [2, 1, 0]] := by decide

/-! ### Witnesses: states and operands that meet the hypotheses of the obligations -/

/-- DecodeOfEncodeIsIdentity, WordsDecodeBackToTheInstruction. -/
theorem witness_encoding_of_well_formed_instructions :
    (Instr.add (.illegal 9) .immediate .relative).wellFormed = true ∧
    [7, -8, 9].length = (Instr.add (.illegal 9) .immediate .relative).params.length ∧
    Instr.halt.wellFormed = true :=
  by decide

/-- DecodedInstructionsAreWellFormed. -/
theorem witness_decoding_words : decodeWord 301 = .ok (.add (.illegal 3) .position .position) := by decide

/-- OnlyTheTenOpcodesDecode, both clauses at their boundaries. -/
theorem witness_opcodes :
    [1, 9, 99].all (fun w => decide (opcodeOf w ∈ knownOpcodes)) = true ∧
    [0, 10, 98].all (fun w => decide (opcodeOf w ∉ knownOpcodes)) = true := by decide

/-- HighDigitsAreIgnored, NegativeWordDecodesAsItsRemainder. -/
theorem witness_word_signs : (0 : Int) ≤ 0 ∧ (-1 : Int) < 0 := by decide

/-- CanonicalWordIsTheSmallest. -/
theorem witness_canonical_word : (0 : Int) ≤ 1000099 ∧ decodeWord 1000099 = .ok .halt := by decide

/-- StrictMachineAcceptsOnlyCanonicalWords. -/
theorem witness_strict_machine :
    ({ negWordFaults := true, strictOpcodeWord := true } : Config).negWordFaults = true ∧
    ({ negWordFaults := true, strictOpcodeWord := true } : Config).strictOpcodeWord = true := by decide

/-- StepRunsTheDecodedInstruction, both clauses. -/
theorem witness_decoded_step :
    (cpu [104, 7]).status.live = true ∧ (cpu [104, 7]).opcodeWord = some 104 ∧
    (cpu [104, 7]).cfg.negWordFaults = false ∧ (cpu [104, 7]).cfg.strictOpcodeWord = false ∧
    decodeWord 104 = .ok (.output .immediate) ∧
    decodeFor (cpu [104, 7]).cfg 104 = .ok (.output .immediate) := by decide

/-- UnknownOpcodeFails. -/
theorem witness_unknown_opcode :
    (cpu [10, 0, 0]).status.live = true ∧ (cpu [10, 0, 0]).opcodeWord = some 10 ∧ opcodeOf 10 ∉ knownOpcodes :=
  by decide

/-- RunningOffTheEndFails and the third clause of HaltIsFinal: the first address beyond the end. -/
theorem witness_end_of_memory : (cpu [99] 1).status.live = true ∧ (cpu [99] 1).mem.len ≤ (cpu [99] 1).ip := by decide

/-- ReadGivesTheCellAndExtendsMemory, WriteStoresTheValueAndExtendsMemory: the last cell, the first one beyond, -1. -/
theorem witness_accesses :
    (cpu [1, 2]).mem.wf ∧ (1 : Int).toNat < (cpu [1, 2]).mem.len ∧
    admits (cpu [1, 2]).cfg.memLimit ((2 : Int).toNat + 1) = true ∧ (-1 : Int) < 0 := by decide

/-- LimitsFaultInsteadOfWrapping, first clause. -/
theorem witness_memory_limit :
    ({ cpu [1, 2] with cfg := { memLimit := some 2 } } : State).mem.len ≤ (2 : Int).toNat ∧
    2 < (2 : Int).toNat + 1 :=
  by decide

/-- LimitsFaultInsteadOfWrapping, second and third clauses. -/
theorem witness_queue_limits :
    ({ cpu [104, 7] with cfg := { outqLimit := some 0 } } : State).readFault 1 .immediate = none ∧
    0 ≤ ({ cpu [104, 7] with cfg := { outqLimit := some 0 } } : State).outq.length ∧
    1 ≤ ({ cpu [99] 0 0 [5] with cfg := { inqLimit := some 1 } } : State).inq.length := by decide

/-- AddStoresTheSum, MultiplyStoresTheProduct, LessThanStoresItsTruth, EqualsStoresItsTruth: reads beyond the end. -/
theorem witness_binary_operands :
    (cpu [1, 9, 10, 3]).mem.wf ∧ (cpu [1, 9, 10, 3]).binaryFault .position .position .position = none ∧
    (cpu [1, 9, 10, 3]).operandAddress 3 .position = some 3 := by decide

/-- InputStoresTheFrontOfItsQueue: a target beyond the end. -/
theorem witness_input_operands :
    (cpu [3, 9, 99] 0 0 [5]).mem.wf ∧ (cpu [3, 9, 99] 0 0 [5]).inq = 5 :: [] ∧
    ((cpu [3, 9, 99] 0 0 [5]).targetFault 1 .position).or ((cpu [3, 9, 99] 0 0 [5]).cellFault 1 .position) = none ∧
    (cpu [3, 9, 99] 0 0 [5]).operandAddress 1 .position = some 9 := by decide

/-- EmptyInputOnlySuspends. -/
theorem witness_waiting_input : (cpu [3, 3]).inq = [] ∧ (cpu [3, 3]).interactive = false := by decide

/-- InteractiveInputStoresThePromptValue. -/
theorem witness_interactive_input :
    (cpu [3, 0]).mem.wf ∧ ({ cpu [3, 0] with interactive := true } : State).inq = [] ∧
    (({ cpu [3, 0] with interactive := true } : State).targetFault 1 .position).or
      (({ cpu [3, 0] with interactive := true } : State).cellFault 1 .position) = none ∧
    ({ cpu [3, 0] with interactive := true } : State).operandAddress 1 .position = some 0 := by decide

/-- OutputAppendsItsOperand. -/
theorem witness_output_operands :
    (cpu [4, 50, 99]).readFault 1 .position = none ∧
    admits (cpu [4, 50, 99]).cfg.outqLimit ((cpu [4, 50, 99]).outq.length + 1) = true := by decide

/-- JumpIfTrueFollowsItsCondition, taken, to the lowest target. -/
theorem witness_taken_jumpIfTrue :
    (cpu [1105, 1, 0]).readFault 1 .immediate = none ∧ (cpu [1105, 1, 0]).readFault 2 .immediate = none ∧
    (cpu [1105, 1, 0]).operandValue 1 .immediate ≠ 0 ∧
    0 ≤ (cpu [1105, 1, 0]).operandValue 2 .immediate := by decide

/-- JumpIfTrueFollowsItsCondition, not taken; and JumpIfFalse of NegativeJumpTargetFails, taken. -/
theorem witness_untaken_jumpIfTrue :
    (cpu [1105, 0, -1]).readFault 1 .immediate = none ∧ (cpu [1105, 0, -1]).readFault 2 .immediate = none ∧
    (cpu [1105, 0, -1]).operandValue 1 .immediate = 0 ∧
    (cpu [1105, 0, -1]).operandValue 2 .immediate < 0 := by decide

/-- JumpIfFalseFollowsItsCondition, taken, to the lowest target. -/
theorem witness_taken_jumpIfFalse :
    (cpu [1106, 0, 0]).readFault 1 .immediate = none ∧ (cpu [1106, 0, 0]).readFault 2 .immediate = none ∧
    (cpu [1106, 0, 0]).operandValue 1 .immediate = 0 ∧
    0 ≤ (cpu [1106, 0, 0]).operandValue 2 .immediate := by decide

/-- JumpIfFalseFollowsItsCondition, not taken; and JumpIfTrue of NegativeJumpTargetFails, taken. -/
theorem witness_untaken_jumpIfFalse :
    (cpu [1106, 1, -1]).readFault 1 .immediate = none ∧ (cpu [1106, 1, -1]).readFault 2 .immediate = none ∧
    (cpu [1106, 1, -1]).operandValue 1 .immediate ≠ 0 ∧
    (cpu [1106, 1, -1]).operandValue 2 .immediate < 0 := by decide

/-- AdjustRelativeBaseAddsItsOperand. -/
theorem witness_adjustRelativeBase_operand : (cpu [209, 1, 99, 0, 0, 6] 0 4).readFault 1 .relative = none := by decide

/-- BinaryInstructionsFrame, for each of the four, completing; and both clauses on the resolution. -/
theorem witness_binary_frame :
    (∃ t, exec (.add .position .position .position) (cpu [1, 0, 0, 0]) = .next t) ∧
    (∃ t, exec (.multiply .position .position .position) (cpu [2, 0, 0, 0]) = .next t) ∧
    (∃ t, exec (.lessThan .position .position .position) (cpu [7, 0, 0, 0]) = .next t) ∧
    (∃ t, exec (.equals .position .position .position) (cpu [8, 0, 0, 0]) = .next t) ∧
    (∃ r, (cpu [1, 0, 0, 0]).resolveThree .position .position .position = .ok r) ∧
    (∃ e, (cpu [1, -1, 0, 0]).resolveThree .position .position .position = .error e) :=
  ⟨⟨_, rfl⟩, ⟨_, rfl⟩, ⟨_, rfl⟩, ⟨_, rfl⟩, ⟨_, rfl⟩, ⟨_, rfl⟩⟩

/-- InputFrame, every clause. -/
theorem witness_input_frame :
    (∃ t, exec (.input .position) (cpu [3, 3] 0 0 [7]) = .next t ∧ t.status = .running) ∧
    (∃ t, exec (.input .position) (cpu [3, 3]) = .next t ∧ t.status = .suspended) ∧
    (∃ r, (cpu [3, 3]).writeTarget 1 .position = .ok r) ∧
    (∃ e, (cpu [103, 3]).writeTarget 1 .immediate = .error e) :=
  ⟨⟨_, rfl, rfl⟩, ⟨_, rfl, rfl⟩, ⟨_, rfl⟩, ⟨_, rfl⟩⟩

/-- NonStoringInstructionsFrame, for each of the five; InstructionsFailExactlyOnAFault and InstructionPointerMovesByTheRule too. -/
theorem witness_non_storing_frame :
    (∃ t, exec (.output .position) (cpu [4, 0]) = .next t ∧ t.status = .running) ∧
    (∃ t, exec (.jumpIfTrue .position .position) (cpu [5, 0, 0]) = .next t ∧ t.status = .running) ∧
    (∃ t, exec (.jumpIfFalse .position .position) (cpu [6, 0, 0]) = .next t ∧ t.status = .running) ∧
    (∃ t, exec (.adjustRelativeBase .position) (cpu [9, 0]) = .next t ∧ t.status = .running) ∧
    (∃ t, exec .halt (cpu [99]) = .next t ∧ t.status = .halted) :=
  ⟨⟨_, rfl, rfl⟩, ⟨_, rfl, rfl⟩, ⟨_, rfl, rfl⟩, ⟨_, rfl, rfl⟩, ⟨_, rfl, rfl⟩⟩

/-- FirstFaultIsTheOneReported, with two faults; InstructionsFailExactlyOnAFault, without one. -/
theorem witness_first_fault :
    firstFault (.add .position .position .immediate) (cpu [10001, -1, 0, 0]) = some (.negativeAddress (-1)) ∧
    firstFault .halt (cpu [99]) = none := by decide

/-- InvalidWriteModeComesFromImmediateTargets, first two clauses. -/
theorem witness_invalid_write_mode :
    (cpu [11101, 3, 4, 0]).readFault 1 .immediate = none ∧
    (cpu [11101, 3, 4, 0]).readFault 2 .immediate = none ∧
    (cpu [11101, 3, 4, 0]).accessFault ((cpu [11101, 3, 4, 0]).ip + 3) = none ∧
    (cpu [103, 3] 0 0 [1]).waits = false ∧
    (cpu [103, 3] 0 0 [1]).accessFault ((cpu [103, 3] 0 0 [1]).ip + 1) = none :=
  by decide

/-- InvalidWriteModeComesFromImmediateTargets, third clause. -/
theorem witness_invalid_write_mode_record :
    (cpu [103, 3] 0 0 [1]).cause = none ∧ ∃ t, exec (.input .immediate) (cpu [103, 3] 0 0 [1]) = .next t ∧
      t.cause = some { what := .invalidWriteMode 1, faultIp := 0, word := some 103 } := ⟨rfl, _, rfl, rfl⟩

/-- UndefinedModeFailsOnAParameterThatExists, every clause. -/
theorem witness_undefined_mode :
    ((ParamKind.write, Mode.illegal 3) ∈ (Instr.add .position .position (.illegal 3)).params) ∧
    (Instr.input (.illegal 9)).params.head? = some (.write, .illegal 9) ∧
    (cpu [903, 0] 0 0 [1]).waits = false ∧
    (cpu [903, 0] 0 0 [1]).accessFault ((cpu [903, 0] 0 0 [1]).ip + 1) = none ∧
    ∃ t, exec (.input (.illegal 9)) (cpu [903, 0] 0 0 [1]) = .next t ∧
      t.cause = some { what := .invalidMode 1 9, faultIp := 0, word := some 903 } :=
  ⟨by decide, by decide, by decide, by decide, _, rfl, rfl⟩

/-- FaultLeavesTheStateBeforeIt. -/
theorem witness_failing_step :
    ∃ t, step (cpu [1, 20, -1, 0]) = .next t ∧ (cpu [1, 20, -1, 0]).status ≠ .failed ∧ t.status = .failed :=
  ⟨_, rfl, by decide, rfl⟩

/-- NoExhaustionWithoutLimits. -/
theorem witness_step_without_limits :
    (cpu [0]).cfg.memLimit = none ∧ (cpu [0]).cfg.outqLimit = none ∧ (cpu [0]).cause = none ∧
    ∃ t, step (cpu [0]) = .next t ∧ t.cause = some { what := .unknownOpcode 0, faultIp := 0, word := some 0 } :=
  ⟨rfl, rfl, rfl, _, rfl, rfl⟩

/-- StepKeepsTheInvariants, TransactionsKeepTheInvariants: a suspended core. -/
theorem witness_invariant_suspended :
    (next (cpu [3, 3, 99])).Inv ∧ ∃ t, step (next (cpu [3, 3, 99])) = .next t := by
  refine ⟨⟨by decide, by decide, fun c h => ?_, by decide, by decide, by decide, by decide⟩, _, rfl⟩
  have hn : (next (cpu [3, 3, 99])).cause = none := by decide
  rw [hn] at h
  cases h

/-- The same, a failed core with its record. -/
theorem witness_invariant_failed :
    (next (cpu [0])).Inv := by
  refine ⟨by decide, by decide, fun c h => ?_, by decide, by decide, by decide, by decide⟩
  have hc : (next (cpu [0])).cause = some { what := .unknownOpcode 0, faultIp := 0, word := some 0 } := by decide
  rw [hc] at h
  cases h
  decide

/-- MemoryNeverShrinksAndConfigurationStays. -/
theorem witness_transactions :
    (Transaction.run 5).isLoad = false ∧ (Transaction.load [99] true).isLoad = true := by decide

/-- OnlyAnEmptyInputSuspends, both clauses. -/
theorem witness_suspension :
    (cpu [3, 3]).status.live = true ∧ (∃ t, step (cpu [3, 3]) = .next t ∧ t.status = .suspended) ∧
    ∃ t, (cpu [3, 3]).run 1 = some t ∧ t.status.live = true := ⟨rfl, ⟨_, rfl, rfl⟩, _, rfl, rfl⟩

/-- QueuesAreReachedOnlyByInputAndOutput, OutputQueueIsWrittenAtTheBackAndNeverRead. -/
theorem witness_queue_instructions :
    (∀ m, Instr.output .immediate ≠ .input m) ∧ (∀ m, Instr.input .position ≠ .output m) ∧
    (∃ t, exec (.output .immediate) (cpu [104, 5]) = .next t ∧ t.status = .running) ∧
    (cpu [104, 5]).cfg.outqLimit = none ∧ ({ cpu [99] with outq := [5] } : State).outq = 5 :: [] :=
  ⟨(fun _ h => nomatch h), (fun _ h => nomatch h), ⟨_, rfl, rfl⟩, rfl, rfl⟩

/-- OnlyAdjustRelativeBaseMovesRb. -/
theorem witness_moving_base :
    ∃ t, step (cpu [109, -7, 99] 0 3) = .next t ∧ t.rb ≠ (cpu [109, -7, 99] 0 3).rb := ⟨_, rfl, by decide⟩

/-- RelativeBaseMattersOnlyInRelativeMode. -/
theorem witness_no_relative_parameter :
    (∀ p ∈ (Instr.adjustRelativeBase .immediate).params, p.2 ≠ .relative) ∧
    ∃ t, exec (.adjustRelativeBase .immediate) (cpu [109, 19] 0 2000) = .next t ∧ t.rb = 2019 :=
  ⟨by decide, _, rfl, by decide⟩

/-- StepMovesTheStatusByTheTable, every row. -/
theorem witness_status_table :
    (∃ t, step (next (cpu [99])) = .next t) ∧ (next (cpu [99])).status.live = false ∧
    (∃ t, step (cpu [99]) = .next t ∧ t.status = .halted) ∧ (∃ t, step (cpu [3, 0]) = .next t ∧
    t.status = .suspended) ∧
    (∃ t, step (cpu [0]) = .next t ∧ t.status = .failed) ∧ (∃ t, step (cpu [104, 0]) = .next t ∧
    t.status = .running) :=
  ⟨⟨_, rfl⟩, rfl, ⟨_, rfl, rfl⟩, ⟨_, rfl, rfl⟩, ⟨_, rfl, rfl⟩, ⟨_, rfl, rfl⟩⟩

/-- StoreIsSeenByTheNextFetch, at the new ip (S3). -/
theorem witness_store_cputhe_next_word :
    (cpu [1101, 100, -1, 4, 0]).mem.wf ∧
    storeOf (.add .immediate .immediate .position) (cpu [1101, 100, -1, 4, 0]) = some (4, 99) ∧
    ∃ t, exec (.add .immediate .immediate .position) (cpu [1101, 100, -1, 4, 0]) = .next t ∧
    t.status = .running ∧
      (t.ip : Int) = 4 := ⟨by decide, by decide, _, rfl, rfl, rfl⟩

/-- StoreIsSeenByTheNextFetch, at another address (A2). -/
theorem witness_store_elsewhere :
    (cpu [1101, 7, -9, 5, 99, 0]).mem.wf ∧
    storeOf (.add .immediate .immediate .position) (cpu [1101, 7, -9, 5, 99, 0]) = some (5, -2) ∧
    ∃ t, exec (.add .immediate .immediate .position) (cpu [1101, 7, -9, 5, 99, 0]) = .next t ∧
    t.status = .running ∧
      (t.ip : Int) ≠ 5 := ⟨by decide, by decide, _, rfl, rfl, by decide⟩

/-- ResumedRunEqualsRunWithInputFromTheStart (RUN4); the run equals RunsTo, in RunRepeatsStepsUntilNotRunning. -/
theorem witness_suspended_run :
    RunsTo (cpu [3, 0, 99]) (next (cpu [3, 0, 99])) ∧ (next (cpu [3, 0, 99])).status = .suspended ∧
    ∃ u, RunsTo ((next (cpu [3, 0, 99])).pushIn 5) u ∧ u.status = .halted :=
  ⟨.last rfl (by decide), rfl, _, .more rfl rfl (.last rfl (by decide)), rfl⟩

/-- HaltIsFinal, first two clauses. -/
theorem witness_halted_core :
    (next (cpu [99])).status = .halted ∧
    [Transaction.run 3, .pushIn 4, .popOut].all (fun x => !x.isLoad) = true :=
  by decide

/-- RunRepeatsStepsUntilNotRunning. -/
theorem witness_runs :
    (cpu [99]).status.live = true ∧ (∃ t, (cpu [99]).run 1 = some t) ∧ (next (cpu [0])).status.live = false :=
  ⟨rfl, ⟨_, rfl⟩, rfl⟩

/-- LoadPlacesTheProgram, without a limit and at it. -/
theorem witness_loads :
    admits State.reset.cfg.memLimit [99].length = true ∧ admits (some 1) [99].length = true := by decide

/-- HostTransactionsTouchOnlyTheirQueueEnds, every clause. -/
theorem witness_queue_ends :
    admits (cpu [99] 0 0 [1]).cfg.inqLimit ((cpu [99] 0 0 [1]).inq.length + 1) = true ∧ (cpu [99]).outq = [] ∧
    ({ cpu [99] with outq := [5, 6] } : State).outq = 5 :: [6] := by decide

/-- PromptDoesNotMatterWhenNotInteractive. -/
theorem witness_not_interactive : (cpu [3, 3]).interactive = false ∧ ∃ t, step (cpu [3, 3]) = .next t := ⟨rfl, _, rfl⟩

/-- ActivationDemandsExactlyOneOutput, every clause. -/
theorem witness_activations :
    (∃ t, ((cpu [3, 9, 104, 5, 99]).pushIn 1).run 9 = some t ∧ t.status ≠ .failed ∧ t.outq = [5]) ∧
    (∃ t, ((cpu [3, 9, 99]).pushIn 1).run 9 = some t ∧ t.status ≠ .failed ∧ t.outq.length ≠ 1) ∧
    (∃ t, ((cpu [0]).pushIn 1).run 9 = some t ∧ t.status = .failed) :=
  ⟨⟨_, rfl, by decide, by decide⟩, ⟨_, rfl, by decide, by decide⟩, ⟨_, rfl, by decide⟩⟩

/-- HaltedCoresPassTheSignalOn, the last two clauses. -/
theorem witness_rounds :
    (∀ s ∈ [next (cpu [99])], s.status = .halted) ∧
    (∃ r, networkRound 9 0 [next (cpu [99]), cpu [3, 9, 104, 5, 99]] 1 = .ok r) ∧
    [next (cpu [99]), cpu [3, 9, 104, 5, 99]][0]? = some (next (cpu [99])) := ⟨by decide, ⟨_, rfl⟩, rfl⟩

/-- HaltedCoresPassTheSignalOn, a Halted core's turn. -/
theorem witness_halted_turn :
    (next (cpu [99])).status = .halted ∧ (∃ e, networkRound 9 1 [cpu [0]] 1 = .error e) ∧
    (∃ ts w made, networkRound 9 1 [cpu [3, 9, 104, 5, 99]] 1 = .ok (ts, w, made)) := ⟨rfl, ⟨_, rfl⟩, _, _, _, rfl⟩

/-- HaltedCoresPassTheSignalOn, a live core's turn, in the middle of the list and at its end. -/
theorem witness_live_turn :
    (cpu [3, 9, 104, 5, 99]).status ≠ .halted ∧ (∃ e, activate 9 0 (cpu [0]) 1 = .error e) ∧
    (∃ t, activate 9 0 (cpu [3, 9, 104, 5, 99]) 1 = .ok (t, 5)) ∧
    (∃ e, networkRound 9 1 [cpu [0]] 5 = .error e) ∧
    (∃ ts w made, networkRound 9 1 [cpu [3, 9, 104, 7, 99]] 5 = .ok (ts, w, made) ∧ w = 7) ∧
    (∃ ts w made, networkRound 9 1 [] 5 = .ok (ts, w, made) ∧ w = 5) :=
  ⟨by decide, ⟨_, rfl⟩, ⟨_, rfl⟩, ⟨_, rfl⟩, ⟨_, _, _, rfl, by decide⟩, _, _, _, rfl, rfl⟩

end Sys2Proof.Tests
end

/-! ## Proofs of the state family (10_state.md)

What one instruction leaves, field by field, as lemmas about `State.after`; then the obligations, each read off
`step_cases` and `exec_cases`. -/

namespace Sys2Proof.Machine

/-! ### Memory within its limit (R33, R149) -/

theorem admits_max {l : Option Nat} {n k : Nat} (hn : admits l n = true) (hk : n < k → admits l k = true) :
    admits l (max n k) = true := by
  rcases Nat.lt_or_ge n k with h | h
  · rw [Nat.max_eq_right h.le]; exact hk h
  · rwa [Nat.max_eq_left h]

/-- What every access does to memory: it stays canonical, does not shrink, and stays within the limit. -/
structure Memory.GrowsWithin (limit : Option Nat) (m m' : Memory) : Prop where
  wf : m.wf → m'.wf
  len_le : m.len ≤ m'.len
  admitted : admits limit m.len = true → admits limit m'.len = true

theorem Memory.GrowsWithin.refl (limit : Option Nat) (m : Memory) : Memory.GrowsWithin limit m m := ⟨id, le_rfl, id⟩

theorem Memory.GrowsWithin.trans {limit : Option Nat} {m m' m'' : Memory} (h : Memory.GrowsWithin limit m m')
    (h' : Memory.GrowsWithin limit m' m'') : Memory.GrowsWithin limit m m'' :=
  ⟨h'.wf ∘ h.wf, h.len_le.trans h'.len_le, h'.admitted ∘ h.admitted⟩

theorem Memory.growsWithin_grow {limit : Option Nat} {m : Memory} {n : Nat}
    (h : n ≤ m.len ∨ admits limit n = true) : Memory.GrowsWithin limit m (m.grow n) where
  wf hm := Memory.wf_grow hm n
  len_le := Nat.le_max_left _ _
  admitted hl := admits_max hl fun hlt => h.resolve_left hlt.not_ge

theorem Memory.growsWithin_set {limit : Option Nat} {m : Memory} {a : Nat} (v : Int)
    (h : a + 1 ≤ m.len ∨ admits limit (a + 1) = true) : Memory.GrowsWithin limit m (m.set a v) where
  wf hm := Memory.wf_set hm a v
  len_le := Nat.le_max_left _ _
  admitted hl := admits_max hl fun hlt => h.resolve_left hlt.not_ge

/-! ### Faultless parameters stay within the limit -/

theorem State.admits_reach_of_readFault {s : State} {k : Nat} {m : Mode} (h : s.readFault k m = none) :
    s.reach k m ≤ s.mem.len ∨ admits s.cfg.memLimit (s.reach k m) = true := by
  obtain ⟨hword, -, hcell⟩ := State.readFault_parts h
  exact State.admits_reach hword hcell

theorem State.admits_paramWord_of_targetFault {s : State} {k : Nat} {m : Mode} (h : s.targetFault k m = none) :
    s.ip + k + 1 ≤ s.mem.len ∨ admits s.cfg.memLimit (s.ip + k + 1) = true := by
  obtain ⟨hword, -⟩ := State.targetFault_parts h
  simpa only [toNat_ip_add] using State.admits_of_accessFault hword

theorem State.accessFault_target {s : State} {k : Nat} {m : Mode} (ht : s.targetFault k m = none)
    (hc : s.cellFault k m = none) : s.accessFault ((s.operandAddress k m).getD 0) = none := by
  obtain ⟨d, hd⟩ := State.operandAddress_of_targetFault ht
  simpa [State.cellFault, hd] using hc

/-! ### What a faultless instruction does to memory -/

theorem State.stored_growsWithin {s : State} {d : Int} {n : Nat} (v : Int) (ip : Nat)
    (hn : n ≤ s.mem.len ∨ admits s.cfg.memLimit n = true) (hd : s.accessFault d = none) :
    Memory.GrowsWithin s.cfg.memLimit s.mem (s.stored d v n ip).mem := by
  have hd' : (s.withMem (s.mem.grow n)).accessFault d = none := (State.accessFault_grow hn d).trans hd
  exact (Memory.growsWithin_grow hn).trans (Memory.growsWithin_set v (State.admits_of_accessFault hd'))

theorem State.afterBinary_growsWithin {s : State} {m1 m2 m3 : Mode} (f : Int → Int → Int)
    (h : s.binaryFault m1 m2 m3 = none) :
    Memory.GrowsWithin s.cfg.memLimit s.mem (s.afterBinary f m1 m2 m3).mem := by
  obtain ⟨h1, h2, h3, hc⟩ : s.readFault 1 m1 = none ∧ s.readFault 2 m2 = none ∧ s.targetFault 3 m3 = none ∧
      s.cellFault 3 m3 = none := by simpa [State.binaryFault] using h
  have hreads := State.admits_max (State.admits_reach_of_readFault h1) (State.admits_reach_of_readFault h2)
  exact State.stored_growsWithin _ _ (State.admits_max hreads (State.admits_paramWord_of_targetFault h3))
    (State.accessFault_target h3 hc)

theorem State.afterJump_growsWithin {s : State} {taken : Int → Bool} {m1 m2 : Mode}
    (h : s.jumpFault taken m1 m2 = none) :
    Memory.GrowsWithin s.cfg.memLimit s.mem (s.afterJump taken m1 m2).mem := by
  obtain ⟨h1, h2, -⟩ : s.readFault 1 m1 = none ∧ s.readFault 2 m2 = none ∧ _ := by
    simpa only [State.jumpFault, Option.or_eq_none_iff] using h
  exact Memory.growsWithin_grow
    (State.admits_max (State.admits_reach_of_readFault h1) (State.admits_reach_of_readFault h2))

theorem State.afterInput_growsWithin {s : State} {m1 : Mode} (h : firstFault (.input m1) s = none) :
    Memory.GrowsWithin s.cfg.memLimit s.mem (s.afterInput m1).mem := by
  have stores (hw : s.waits = false) (v : Int) : Memory.GrowsWithin s.cfg.memLimit s.mem
      (s.stored ((s.operandAddress 1 m1).getD 0) v (s.ip + 1 + 1) (s.ip + 2)).mem := by
    obtain ⟨ht, hc⟩ : s.targetFault 1 m1 = none ∧ s.cellFault 1 m1 = none := by simpa [firstFault, hw] using h
    exact State.stored_growsWithin v _ (State.admits_paramWord_of_targetFault ht) (State.accessFault_target ht hc)
  rcases s.afterInput_cases m1 with ⟨v, rest, hq, ha⟩ | ⟨hq, hi, ha⟩ | ⟨-, -, ha⟩ <;> rw [ha]
  · exact stores (by simp [State.waits, hq]) v
  · exact stores (by simp [State.waits, hi]) _
  · exact Memory.GrowsWithin.refl _ _

theorem State.after_growsWithin {s : State} {i : Instr} (h : firstFault i s = none) :
    Memory.GrowsWithin s.cfg.memLimit s.mem (s.after i).mem := by
  cases i with
  | add | multiply | lessThan | equals => exact State.afterBinary_growsWithin _ h
  | jumpIfTrue | jumpIfFalse => exact State.afterJump_growsWithin h
  | input => exact State.afterInput_growsWithin h
  | output m1 =>
    have hr : s.readFault 1 m1 = none := by
      simp only [firstFault, Option.or_eq_none_iff] at h
      exact h.left
    exact Memory.growsWithin_grow (State.admits_reach_of_readFault hr)
  | adjustRelativeBase => exact Memory.growsWithin_grow (State.admits_reach_of_readFault h)
  | halt => exact Memory.GrowsWithin.refl _ _

/-! ### The other fields a faultless instruction leaves -/

/-- An Input, suspended or not, leaves `rb`, `outq`, `cause`, `interactive` and `cfg` alone. -/
theorem State.afterInput_frame (s : State) (m1 : Mode) : ∃ mem ip inq status drawn,
    s.afterInput m1 = { s with mem := mem, ip := ip, inq := inq, status := status, drawn := drawn } := by
  rcases s.afterInput_cases m1 with ⟨_, _, _, ha⟩ | ⟨_, _, ha⟩ | ⟨_, _, ha⟩ <;> exact ⟨_, _, _, _, _, ha⟩

/-- No instruction changes `cause`, `interactive` or `cfg`, unless it faults. -/
theorem State.after_frame (s : State) (i : Instr) : ∃ mem ip rb inq outq status drawn, s.after i =
    { s with mem := mem, ip := ip, rb := rb, inq := inq, outq := outq, status := status, drawn := drawn } := by
  cases i with
  | input m1 =>
    obtain ⟨mem, ip, inq, status, drawn, ha⟩ := s.afterInput_frame m1
    exact ⟨mem, ip, s.rb, inq, s.outq, status, drawn, ha⟩
  | _ => exact ⟨_, _, _, _, _, _, _, rfl⟩

@[simp] theorem State.after_cause (s : State) (i : Instr) : (s.after i).cause = s.cause := by
  obtain ⟨_, _, _, _, _, _, _, ha⟩ := s.after_frame i
  rw [ha]

@[simp] theorem State.after_interactive (s : State) (i : Instr) : (s.after i).interactive = s.interactive := by
  obtain ⟨_, _, _, _, _, _, _, ha⟩ := s.after_frame i
  rw [ha]

@[simp] theorem State.after_cfg (s : State) (i : Instr) : (s.after i).cfg = s.cfg := by
  obtain ⟨_, _, _, _, _, _, _, ha⟩ := s.after_frame i
  rw [ha]

/-- Only an adjustment of the base moves it (R13). -/
theorem State.after_rb {s : State} {i : Instr} (h : ∀ m, i ≠ .adjustRelativeBase m) : (s.after i).rb = s.rb := by
  cases i with
  | input m1 =>
    obtain ⟨_, _, _, _, _, ha⟩ := s.afterInput_frame m1
    rw [State.after, ha]
  | adjustRelativeBase m => exact absurd rfl (h m)
  | _ => rfl

theorem State.after_inq_length_le (s : State) (i : Instr) : (s.after i).inq.length ≤ s.inq.length := by
  cases i with
  | input m1 =>
    rcases s.afterInput_cases m1 with ⟨_, _, hq, ha⟩ | ⟨_, _, ha⟩ | ⟨_, _, ha⟩ <;> simp [State.after, *]
  | _ => exact le_rfl

/-- What a completing instruction appends to the output queue (R15, R101). -/
def State.emitted (s : State) : Instr → List Int
  | .output m1 => [s.operandValue 1 m1]
  | _ => []

/-- An instruction appends to the output queue without looking at it. -/
theorem State.after_withOutq (s : State) (i : Instr) (q : List Int) :
    ({ s with outq := q } : State).after i = { s.after i with outq := q ++ s.emitted i } := by
  cases i with
  | output m1 => rfl
  | input m1 =>
    obtain ⟨mem, ip, rb, inq, outq, status, cause, interactive, cfg, drawn⟩ := s
    simp only [State.emitted, List.append_nil]
    cases inq with
    | cons v rest => rfl
    | nil => cases interactive <;> rfl
  | _ => simp only [State.emitted, List.append_nil]; rfl

theorem State.after_outq (s : State) (i : Instr) : (s.after i).outq = s.outq ++ s.emitted i :=
  congrArg State.outq (s.after_withOutq i s.outq)

/-! ### How an instruction ends (R27, R70) -/

theorem State.waits_iff {s : State} : s.waits = true ↔ s.inq = [] ∧ s.interactive = false := by
  simp [State.waits]

/-- A faultless instruction halts, suspends, or completes. -/
theorem State.after_ending (s : State) (i : Instr) :
    (i = .halt ∧ s.after i = s.halt) ∨
    ((s.waits = true ∧ ∃ m, i = .input m) ∧ s.after i = s.suspend) ∨
    (i ≠ .halt ∧ ¬ (s.waits = true ∧ ∃ m, i = .input m) ∧ (s.after i).status = .running) := by
  cases i with
  | halt => exact .inl ⟨rfl, rfl⟩
  | input m1 =>
    rcases s.afterInput_cases m1 with ⟨_, _, hq, ha⟩ | ⟨_, hi, ha⟩ | ⟨hq, hi, ha⟩
    · exact .inr (.inr ⟨nofun, by simp [State.waits, hq], by simp [State.after, ha]⟩)
    · exact .inr (.inr ⟨nofun, by simp [State.waits, hi], by simp [State.after, ha]⟩)
    · exact .inr (.inl ⟨⟨State.waits_iff.2 ⟨hq, hi⟩, m1, rfl⟩, ha⟩)
  | _ => exact .inr (.inr ⟨nofun, nofun, rfl⟩)

/-- The status an instruction leaves. -/
theorem exec_status {i : Instr} {s t : State} (h : exec i s = .next t) :
    (t.status = .halted ↔ i = .halt) ∧
    (t.status = .suspended ↔ s.waits = true ∧ ∃ m, i = .input m) ∧
    (t.status = .failed ↔ firstFault i s ≠ none) ∧
    t.status ≠ .ready := by
  rcases exec_cases h with ⟨e, he, rfl⟩ | ⟨hn, rfl⟩
  · have hhalt : i ≠ .halt := by rintro rfl; simp [firstFault] at he
    have hwait : ¬ (s.waits = true ∧ ∃ m, i = .input m) := by
      rintro ⟨hw, m, rfl⟩
      simp [firstFault, hw] at he
    simp only [State.raise_status, hhalt, hwait, he]; simp
  · rcases s.after_ending i with ⟨rfl, ha⟩ | ⟨⟨hw, m, rfl⟩, ha⟩ | ⟨hhalt, hwait, hr⟩
    · simp [ha, hn]
    · simp [ha, hn, hw]
    · simp only [hr, hhalt, hwait, hn]; simp

/-! ### What fetch and dispatch answer (R72, R73) -/

theorem select_opcode {f : Fields} {i : Instr} (h : select f = .ok i) : f.opcode = i.opcode := by
  unfold select at h
  split at h <;> cases h <;> assumption

theorem decodeWord_opcode {w : Int} {i : Instr} (h : decodeWord w = .ok i) : opcodeOf w = i.opcode :=
  (decodeFields_opcode w).symm.trans (select_opcode h)

/-- The dispatch gives the decoder's answer or raises a fault, which is never MalformedOpcode (R141). -/
theorem decodeFor_cases (cfg : Config) (w : Int) :
    (∃ i, decodeWord w = .ok i ∧ decodeFor cfg w = .ok i) ∨
    ∃ e, e ≠ .malformedOpcode ∧ decodeFor cfg w = .error e := by
  unfold decodeFor
  split
  · exact .inr ⟨.unknownOpcode _, nofun, rfl⟩
  · split
    · exact .inr ⟨.unknownOpcode _, nofun, rfl⟩
    · split
      · split
        · exact .inr ⟨.invalidMode _ _, nofun, rfl⟩
        · exact .inl ⟨_, ‹_›, rfl⟩
      · exact .inl ⟨_, ‹_›, rfl⟩

/-- The next instruction is the decoded word at `ip`, or fetch or dispatch raises a fault. -/
theorem State.nextInstr_cases (s : State) :
    (∃ w i, s.opcodeWord = some w ∧ decodeWord w = .ok i ∧ s.nextInstr = .ok i) ∨
    ∃ e, e ≠ .malformedOpcode ∧ s.nextInstr = .error e := by
  cases hw : s.opcodeWord with
  | none => exact .inr ⟨.ranOffEnd s.ip, nofun, by simp [State.nextInstr, State.fetch, hw]⟩
  | some w =>
    have hn : s.nextInstr = decodeFor s.cfg w := by simp [State.nextInstr, State.fetch, hw]
    rw [hn]
    rcases decodeFor_cases s.cfg w with ⟨i, hd, hi⟩ | he
    · exact .inl ⟨w, i, rfl, hd, hi⟩
    · exact .inr he

theorem State.decodeWord_of_nextInstr {s : State} {i : Instr} (h : s.nextInstr = .ok i) :
    ∃ w, s.opcodeWord = some w ∧ decodeWord w = .ok i := by
  rcases s.nextInstr_cases with ⟨w, j, hw, hd, hj⟩ | ⟨e, -, he⟩
  · obtain rfl : i = j := Except.ok.inj (h.symm.trans hj)
    exact ⟨w, hw, hd⟩
  · cases h.symm.trans he

theorem State.ne_malformedOpcode_of_nextInstr {s : State} {e : Raised} (h : s.nextInstr = .error e) :
    e ≠ .malformedOpcode := by
  rcases s.nextInstr_cases with ⟨w, i, -, -, hi⟩ | ⟨e', hmal, he⟩
  · cases h.symm.trans hi
  · obtain rfl : e = e' := Except.error.inj (h.symm.trans he)
    exact hmal

/-! ### MalformedOpcode is never raised (R141, D15) -/

theorem State.accessFault_ne_malformedOpcode (s : State) (a : Int) : s.accessFault a ≠ some .malformedOpcode := by
  unfold State.accessFault
  split_ifs <;> simp

theorem modeFault_ne_malformedOpcode (kind : ParamKind) (k : Nat) (m : Mode) :
    modeFault kind k m ≠ some .malformedOpcode := by
  cases kind <;> cases m <;> simp [modeFault]

theorem State.cellFault_ne_malformedOpcode (s : State) (k : Nat) (m : Mode) :
    s.cellFault k m ≠ some .malformedOpcode := by
  unfold State.cellFault
  cases s.operandAddress k m with
  | none => simp
  | some a => exact s.accessFault_ne_malformedOpcode a

theorem or_ne_some {α : Type} {e : α} {o p : Option α} (ho : o ≠ some e) (hp : p ≠ some e) : o.or p ≠ some e := by
  cases o with
  | none => exact hp
  | some _ => exact ho

theorem State.readFault_ne_malformedOpcode (s : State) (k : Nat) (m : Mode) :
    s.readFault k m ≠ some .malformedOpcode :=
  or_ne_some (s.accessFault_ne_malformedOpcode _)
    (or_ne_some (modeFault_ne_malformedOpcode _ k m) (s.cellFault_ne_malformedOpcode k m))

theorem State.targetFault_ne_malformedOpcode (s : State) (k : Nat) (m : Mode) :
    s.targetFault k m ≠ some .malformedOpcode :=
  or_ne_some (s.accessFault_ne_malformedOpcode _) (modeFault_ne_malformedOpcode _ k m)

theorem State.binaryFault_ne_malformedOpcode (s : State) (m1 m2 m3 : Mode) :
    s.binaryFault m1 m2 m3 ≠ some .malformedOpcode :=
  or_ne_some (s.readFault_ne_malformedOpcode 1 m1) (or_ne_some (s.readFault_ne_malformedOpcode 2 m2)
    (or_ne_some (s.targetFault_ne_malformedOpcode 3 m3) (s.cellFault_ne_malformedOpcode 3 m3)))

theorem State.jumpFault_ne_malformedOpcode (s : State) (taken : Int → Bool) (m1 m2 : Mode) :
    s.jumpFault taken m1 m2 ≠ some .malformedOpcode :=
  or_ne_some (s.readFault_ne_malformedOpcode 1 m1) (or_ne_some (s.readFault_ne_malformedOpcode 2 m2)
    (by split <;> simp))

theorem firstFault_ne_malformedOpcode (i : Instr) (s : State) : firstFault i s ≠ some .malformedOpcode := by
  cases i with
  | add m1 m2 m3 | multiply m1 m2 m3 | lessThan m1 m2 m3 | equals m1 m2 m3 =>
    exact s.binaryFault_ne_malformedOpcode m1 m2 m3
  | jumpIfTrue m1 m2 => exact s.jumpFault_ne_malformedOpcode (fun c => decide (c ≠ 0)) m1 m2
  | jumpIfFalse m1 m2 => exact s.jumpFault_ne_malformedOpcode (fun c => decide (c = 0)) m1 m2
  | input m1 =>
    simp only [firstFault]
    split
    · simp
    · exact or_ne_some (s.targetFault_ne_malformedOpcode 1 m1) (s.cellFault_ne_malformedOpcode 1 m1)
  | output m1 => exact or_ne_some (s.readFault_ne_malformedOpcode 1 m1) (by split <;> simp)
  | adjustRelativeBase m1 => exact s.readFault_ne_malformedOpcode 1 m1
  | halt => nofun

/-! ### The state invariant (R25) -/

/-- A live core that meets the invariants has no fault record. -/
theorem State.Inv.cause_eq_none {s : State} (hs : s.Inv) (hl : s.status.live = true) : s.cause = none := by
  by_contra hc
  rw [hs.causeExactlyWhenFailed.1 hc] at hl
  cases hl

/-- Fault entry keeps the invariants (R150). -/
theorem State.Inv.raise {s : State} (hs : s.Inv) {e : Raised} (he : e ≠ .malformedOpcode) : (s.raise e).Inv where
  memCanonical := hs.memCanonical
  causeExactlyWhenFailed := by simp
  causeDescribesIp c hc := by
    obtain rfl := Option.some.inj hc
    exact ⟨rfl, rfl, he⟩
  suspendedAtInput := nofun
  withinMemLimit := hs.withinMemLimit
  withinInqLimit := hs.withinInqLimit
  withinOutqLimit := hs.withinOutqLimit

/-- A faultless instruction leaves the output queue within its limit. -/
theorem State.after_withinOutqLimit {s : State} {i : Instr} (hn : firstFault i s = none)
    (hs : admits s.cfg.outqLimit s.outq.length = true) : admits s.cfg.outqLimit (s.after i).outq.length = true := by
  rw [State.after_outq]
  cases i with
  | output m1 =>
    obtain ⟨-, hroom⟩ : s.readFault 1 m1 = none ∧ admits s.cfg.outqLimit (s.outq.length + 1) = true := by
      simpa [firstFault] using hn
    simpa [State.emitted] using hroom
  | _ => simpa [State.emitted] using hs

/-- A suspended core waits at the Input it has decoded (R25 (f)). -/
theorem State.after_suspendedAtInput {s : State} {w : Int} {i : Instr} (hw : s.opcodeWord = some w)
    (hd : decodeWord w = .ok i) (hsusp : (s.after i).status = .suspended) :
    (s.after i).ip < (s.after i).mem.len ∧ (s.after i).mem.get (s.after i).ip % 100 = 3 ∧
      (s.after i).interactive = false := by
  rcases s.after_ending i with ⟨-, ha⟩ | ⟨⟨hwaits, m, rfl⟩, ha⟩ | ⟨-, -, hr⟩
  · simp [ha] at hsusp
  · obtain ⟨hip, hword⟩ := State.opcodeWord_eq_some.1 hw
    have hop : opcodeOf w = 3 := decodeWord_opcode hd
    have hmod : w % 100 = 3 := by unfold opcodeOf at hop; omega
    rw [ha]
    exact ⟨hip, by simpa [hword] using hmod, (State.waits_iff.1 hwaits).2⟩
  · simp [hr] at hsusp

/-- A faultless instruction keeps the invariants. -/
theorem State.Inv.after {s : State} (hs : s.Inv) (hl : s.status.live = true) {w : Int} {i : Instr}
    (hw : s.opcodeWord = some w) (hd : decodeWord w = .ok i) (hn : firstFault i s = none) : (s.after i).Inv where
  memCanonical := (State.after_growsWithin hn).wf hs.memCanonical
  causeExactlyWhenFailed := by
    have hf : (s.after i).status ≠ .failed := by
      obtain ⟨-, -, hfailed, -⟩ := exec_status (exec_of_noFault hn)
      simp [hfailed, hn]
    simp [hs.cause_eq_none hl, hf]
  causeDescribesIp c hc := by simp [hs.cause_eq_none hl] at hc
  suspendedAtInput := State.after_suspendedAtInput hw hd
  withinMemLimit := by
    rw [State.after_cfg]
    exact (State.after_growsWithin hn).admitted hs.withinMemLimit
  withinInqLimit := by
    rw [State.after_cfg]
    exact admits_mono (s.after_inq_length_le i) hs.withinInqLimit
  withinOutqLimit := by
    rw [State.after_cfg]
    exact State.after_withinOutqLimit hn hs.withinOutqLimit

/-- A program within MEM_LIMIT is loaded into a state that meets the invariants (R180). -/
theorem State.inv_load {s : State} {program : Program} (b : Bool)
    (h : admits s.cfg.memLimit program.length = true) : (s.load program b).Inv where
  memCanonical := Memory.wf_ofProgram program
  causeExactlyWhenFailed := by simp
  causeDescribesIp := nofun
  suspendedAtInput := nofun
  withinMemLimit := by
    have hlen : (Memory.ofProgram program).len = program.length := by
      rw [Memory.ofProgram, Memory.len_store]
      cases program <;> simp [Memory.empty]
    simpa [hlen] using h
  withinInqLimit := by cases hq : s.cfg.inqLimit <;> simp [admits, hq]
  withinOutqLimit := by cases hq : s.cfg.outqLimit <;> simp [admits, hq]

/-! ### The output queue (R15) -/

/-- Without OUTQ_LIMIT no fault depends on the output queue. -/
theorem firstFault_withOutq {s : State} (h : s.cfg.outqLimit = none) (i : Instr) (q : List Int) :
    firstFault i { s with outq := q } = firstFault i s := by
  cases i with
  | output m1 => simp only [firstFault, h, admits]; rfl
  | _ => rfl

theorem State.emitted_eq_nil {s : State} {i : Instr} (h : ∀ m, i ≠ .output m) : s.emitted i = [] := by
  cases i with
  | output m => exact absurd rfl (h m)
  | _ => rfl

theorem State.popOut_of_cons {s : State} {v : Int} {rest : List Int} (h : s.outq = v :: rest) :
    s.popOut = (some v, { s with outq := rest }) := by
  simp [State.popOut, h]

/-! ### Transactions other than LOAD (R28, R33) -/

/-- `t` may follow `s` without a LOAD: the same machine, its memory at least as long. -/
structure State.Precedes (s t : State) : Prop where
  cfg : t.cfg = s.cfg
  interactive : t.interactive = s.interactive
  len_le : s.mem.len ≤ t.mem.len

theorem State.Precedes.refl (s : State) : s.Precedes s := ⟨rfl, rfl, le_rfl⟩

theorem State.Precedes.trans {s t u : State} (h : s.Precedes t) (h' : t.Precedes u) : s.Precedes u :=
  ⟨h'.cfg.trans h.cfg, h'.interactive.trans h.interactive, h.len_le.trans h'.len_le⟩

theorem State.precedes_step {s t : State} (h : step s = .next t) : s.Precedes t := by
  rcases step_cases h with ⟨-, rfl⟩ | ⟨-, e, -, rfl⟩ | ⟨-, i, -, hx⟩
  · exact .refl _
  · exact ⟨rfl, rfl, le_rfl⟩
  · rcases exec_cases hx with ⟨e, -, rfl⟩ | ⟨hn, rfl⟩
    · exact ⟨rfl, rfl, le_rfl⟩
    · exact ⟨s.after_cfg i, s.after_interactive i, (State.after_growsWithin hn).len_le⟩

/-- What every step keeps, the loop of RUN keeps (R71). -/
theorem runLoop_keeps {P : State → Prop} (hP : ∀ s t, P s → step s = .next t → P t) :
    ∀ (fuel : Nat) {s t : State}, P s → runLoop fuel s = some t → P t
  | 0, _, _, _, h => nomatch h
  | fuel + 1, s, t, hs, h => by
    obtain ⟨u, hu⟩ : ∃ u, step s = .next u := ⟨_, step_eq s⟩
    simp only [runLoop, hu] at h
    split at h
    · exact runLoop_keeps hP fuel (hP s u hs hu) h
    · obtain rfl := Option.some.inj h
      exact hP s u hs hu

/-- What every step keeps, RUN keeps. -/
theorem State.run_keeps {P : State → Prop} (hP : ∀ s t, P s → step s = .next t → P t) {fuel : Nat} {s t : State}
    (hs : P s) (h : s.run fuel = some t) : P t := by
  unfold State.run at h
  split at h
  · exact runLoop_keeps hP fuel hs h
  · exact Option.some.inj h ▸ hs

/-- A property of states that PUSH_IN, POP_OUT and every step keep is kept by every transaction but LOAD. -/
theorem perform_keeps {P : State → Prop} (hpush : ∀ s v, P s → P (s.pushIn v))
    (hpop : ∀ s, P s → P s.popOut.2) (hstep : ∀ s t, P s → step s = .next t → P t) {s : State} (hs : P s)
    {x : Transaction} (hx : x.isLoad = false) : P (perform s x).1 := by
  cases x with
  | load => cases hx
  | pushIn v =>
    simp only [perform]
    split
    · exact hpush s v hs
    · exact hs
  | popOut => exact hpop s hs
  | run fuel =>
    simp only [perform]
    cases hr : s.run fuel with
    | none => exact hs
    | some t => exact State.run_keeps hstep hs hr
  | step =>
    obtain ⟨t, ht⟩ : ∃ t, step s = .next t := ⟨_, step_eq s⟩
    simp only [perform, ht]
    exact hstep s t hs ht
  | observe => exact hs

theorem State.precedes_popOut (s : State) : s.Precedes s.popOut.2 := by
  unfold State.popOut
  split <;> exact ⟨rfl, rfl, le_rfl⟩

theorem State.precedes_perform (s : State) {x : Transaction} (hx : x.isLoad = false) :
    s.Precedes (perform s x).1 :=
  perform_keeps (P := s.Precedes) (fun _ _ h => h.trans ⟨rfl, rfl, le_rfl⟩) (fun t h => h.trans t.precedes_popOut)
    (fun _ _ h hstep => h.trans (State.precedes_step hstep)) (.refl s) hx

/-- LOAD, performed or refused, keeps the parameters of the machine. -/
theorem perform_load_cfg (s : State) (program : Program) (b : Bool) :
    (perform s (.load program b)).1.cfg = s.cfg := by
  simp only [perform]
  split <;> rfl

/-! ### The obligations -/

/-- Settles O40: fault entry keeps the invariants, since no fault is MalformedOpcode, and so does a faultless
instruction. -/
theorem stepKeepsTheInvariants : Obligations.StepKeepsTheInvariants := by
  intro s t hs h
  rcases step_cases h with ⟨-, rfl⟩ | ⟨-, e, he, rfl⟩ | ⟨hl, i, hi, hx⟩
  · exact hs
  · exact hs.raise (State.ne_malformedOpcode_of_nextInstr he)
  · rcases exec_cases hx with ⟨e, he, rfl⟩ | ⟨hn, rfl⟩
    · exact hs.raise fun hmal => firstFault_ne_malformedOpcode i s (hmal ▸ he)
    · obtain ⟨w, hw, hd⟩ := State.decodeWord_of_nextInstr hi
      exact hs.after hl hw hd hn

/-- Settles O42: LOAD keeps the parameters, and every other transaction leads to a state that `s` precedes. -/
theorem memoryNeverShrinksAndConfigurationStays : Obligations.MemoryNeverShrinksAndConfigurationStays := by
  intro s x
  cases hx : x.isLoad with
  | true =>
    obtain ⟨program, b, rfl⟩ : ∃ program b, x = .load program b := by
      cases x with
      | load program b => exact ⟨program, b, rfl⟩
      | _ => cases hx
    exact ⟨perform_load_cfg s program b, nofun⟩
  | false =>
    obtain ⟨hcfg, hinteractive, hlen⟩ := s.precedes_perform hx
    exact ⟨hcfg, fun _ => ⟨hlen, hinteractive⟩⟩

/-- Settles O46: a faulting instruction appends nothing, a faultless one what `State.emitted` says. -/
theorem outputQueueIsWrittenAtTheBackAndNeverRead : Obligations.OutputQueueIsWrittenAtTheBackAndNeverRead := by
  refine ⟨fun i s t hlim hx => ?_, fun s v rest hq => by simp [perform, State.popOut_of_cons hq]⟩
  rcases exec_cases hx with ⟨e, he, rfl⟩ | ⟨hn, rfl⟩
  · refine ⟨[], by simp, nofun, fun _ => rfl, fun q => ?_⟩
    rw [exec_of_fault ((firstFault_withOutq hlim i q).trans he), List.append_nil]
    rfl
  · refine ⟨s.emitted i, s.after_outq i, fun m hi _ => by rw [hi]; rfl, fun hnot => ?_, fun q => ?_⟩
    · refine State.emitted_eq_nil fun m hi => ?_
      subst hi
      exact hnot.elim (fun hne => hne m rfl) fun hrun => hrun rfl
    · rw [exec_of_noFault ((firstFault_withOutq hlim i q).trans hn), State.after_withOutq]

/-- Settles O47: fetch, dispatch and fault entry keep `rb`, and so does every other instruction. -/
theorem onlyAdjustRelativeBaseMovesRb : Obligations.OnlyAdjustRelativeBaseMovesRb := by
  intro s t h hrb
  rcases step_cases h with ⟨-, rfl⟩ | ⟨-, e, -, rfl⟩ | ⟨-, i, hi, hx⟩
  · exact absurd rfl hrb
  · exact absurd rfl hrb
  · rcases exec_cases hx with ⟨e, -, rfl⟩ | ⟨-, rfl⟩
    · exact absurd rfl hrb
    · by_cases hadj : ∃ m, i = .adjustRelativeBase m
      · obtain ⟨m, rfl⟩ := hadj
        exact ⟨m, hi, rfl⟩
      · exact absurd (State.after_rb (not_exists.1 hadj)) hrb

/-- Settles O49, by the three outcomes of a step and the status an instruction leaves. -/
theorem stepMovesTheStatusByTheTable : Obligations.StepMovesTheStatusByTheTable := by
  intro s t h
  rcases step_cases h with ⟨hl, rfl⟩ | ⟨hl, e, he, rfl⟩ | ⟨hl, i, hi, hx⟩
  · simp [hl]
  · simp [hl, he]
  · obtain ⟨hhalted, hsuspended, hfailed, hready⟩ := exec_status hx
    refine ⟨by simp [hl], fun _ => ?_⟩
    simpa [hi, hhalted, hsuspended, hready] using hfailed

/-- Settles O39: reset is the LOAD of the empty program. -/
theorem resetMeetsTheInvariants : Obligations.ResetMeetsTheInvariants := by
  have hload : State.reset.load [] false = State.reset := rfl
  have hinv : State.reset.Inv := hload ▸ State.inv_load false rfl
  exact ⟨hinv, rfl, fun _ => rfl, rfl, rfl, rfl, rfl, rfl, rfl, rfl⟩

end Sys2Proof.Machine

/-! ## Proofs of the memory family (20_memory.md)

Accesses are read off `State.memRead_eq` and `State.memWrite_eq`. What an instruction does to the queues, and that a
storing instruction leaves `State.stored`, are said once as lemmas about `State.after`; the obligations cite them. -/

namespace Sys2Proof.Machine

/-! ### Accesses (R31, R32, R34) -/

theorem State.accessFault_of_neg {s : State} {a : Int} (ha : a < 0) : s.accessFault a = some (.negativeAddress a) := by
  simp [State.accessFault, ha]

/-- Settles O14: a faultless read only extends memory, and canonical memory reads 0 beyond its end. -/
theorem readGivesTheCellAndExtendsMemory : Obligations.ReadGivesTheCellAndExtendsMemory := by
  refine fun s a hwf => ⟨fun ha hroom => ?_, fun ha => by rw [State.memRead_eq, State.accessFault_of_neg ha]⟩
  have hnone : s.accessFault a = none := State.accessFault_eq_none.2 ⟨ha, hroom⟩
  exact ⟨_, s.withMem (s.mem.grow (a.toNat + 1)), by rw [State.memRead_eq, hnone], rfl,
    Memory.get_of_len_le hwf, rfl, rfl, fun _ => rfl⟩

/-- Settles O15: a faultless write is `Memory.set`. -/
theorem writeStoresTheValueAndExtendsMemory : Obligations.WriteStoresTheValueAndExtendsMemory := by
  refine fun s a v hwf => ⟨fun ha hroom => ?_, fun ha => by rw [State.memWrite_eq, State.accessFault_of_neg ha]⟩
  have hnone : s.accessFault a = none := State.accessFault_eq_none.2 ⟨ha, hroom⟩
  exact ⟨s.withMem (s.mem.set a.toNat v), by rw [State.memWrite_eq, hnone], rfl, rfl,
    Memory.wf_set hwf _ v, Memory.get_set hwf _ v⟩

/-! ### The queues (R14, R15, R44) -/

/-- A faultless instruction leaves the input queue, unless it is an Input that completes with its front element. -/
theorem State.after_inq (s : State) (i : Instr) :
    (s.after i).inq = s.inq ∨ ∃ m v, i = .input m ∧ s.inq = v :: (s.after i).inq ∧ (s.after i).status = .running := by
  cases i with
  | input m =>
    rcases s.afterInput_cases m with ⟨v, rest, hq, ha⟩ | ⟨-, -, ha⟩ | ⟨-, -, ha⟩
    · exact .inr ⟨m, v, rfl, by simp [State.after, ha, hq], by simp [State.after, ha]⟩
    · exact .inl (by simp [State.after, ha])
    · exact .inl (by simp [State.after, ha])
  | _ => exact .inl rfl

/-- A faultless instruction leaves the output queue, unless it is an Output, which appends its operand value. -/
theorem State.after_outq_cases (s : State) (i : Instr) :
    (s.after i).outq = s.outq ∨
    ∃ m, i = .output m ∧ (s.after i).outq = s.outq ++ [s.operandValue 1 m] ∧ (s.after i).status = .running := by
  by_cases hout : ∃ m, i = .output m
  · obtain ⟨m, rfl⟩ := hout
    exact .inr ⟨m, rfl, rfl, rfl⟩
  · exact .inl (by rw [State.after_outq, State.emitted_eq_nil (not_exists.1 hout), List.append_nil])

theorem firstFault_withInq {i : Instr} (h : ∀ m, i ≠ .input m) (s : State) (q : List Int) :
    firstFault i { s with inq := q } = firstFault i s := by
  cases i with
  | input m => exact absurd rfl (h m)
  | _ => rfl

theorem State.after_withInq {i : Instr} (h : ∀ m, i ≠ .input m) (s : State) (q : List Int) :
    ({ s with inq := q } : State).after i = { s.after i with inq := q } := by
  cases i with
  | input m => exact absurd rfl (h m)
  | _ => rfl

/-- With OUTQ_LIMIT set too, only the fault of an Output depends on the output queue (R149). -/
theorem firstFault_withOutq_of_ne_output {i : Instr} (h : ∀ m, i ≠ .output m) (s : State) (q : List Int) :
    firstFault i { s with outq := q } = firstFault i s := by
  cases i with
  | output m => exact absurd rfl (h m)
  | _ => rfl

/-- An instruction other than Input does not look at the input queue. -/
theorem exec_withInq {i : Instr} {s t : State} (hi : ∀ m, i ≠ .input m) (h : exec i s = .next t) (q : List Int) :
    exec i { s with inq := q } = .next { t with inq := q } := by
  have hf := firstFault_withInq hi s q
  rcases exec_cases h with ⟨e, he, rfl⟩ | ⟨hn, rfl⟩
  · rw [exec_of_fault (hf.trans he)]
    rfl
  · rw [exec_of_noFault (hf.trans hn), State.after_withInq hi]

/-- An instruction other than Output does not look at the output queue. -/
theorem exec_withOutq {i : Instr} {s t : State} (hi : ∀ m, i ≠ .output m) (h : exec i s = .next t) (q : List Int) :
    exec i { s with outq := q } = .next { t with outq := q } := by
  have hf := firstFault_withOutq_of_ne_output hi s q
  rcases exec_cases h with ⟨e, he, rfl⟩ | ⟨hn, rfl⟩
  · rw [exec_of_fault (hf.trans he)]
    rfl
  · rw [exec_of_noFault (hf.trans hn), State.after_withOutq, State.emitted_eq_nil hi, List.append_nil]

/-- Settles O45: fault entry keeps both queues, and a faultless instruction changes them as `State.after_inq` and
`State.after_outq_cases` say. -/
theorem queuesAreReachedOnlyByInputAndOutput : Obligations.QueuesAreReachedOnlyByInputAndOutput := by
  refine ⟨fun i s t h => ?_, fun i s t q hi h => exec_withInq hi h q, fun i s t q hi h => exec_withOutq hi h q⟩
  rcases exec_cases h with ⟨e, -, rfl⟩ | ⟨-, rfl⟩
  · exact ⟨.inl rfl, .inl rfl⟩
  · exact ⟨s.after_inq i, s.after_outq_cases i⟩

/-! ### A store and the fetch after it (R42) -/

/-- An address a faultless access names is not negative (R34). -/
theorem State.operandAddress_nonneg {s : State} {k : Nat} {m : Mode} {d : Int} (hc : s.cellFault k m = none)
    (hd : s.operandAddress k m = some d) : 0 ≤ d := by
  have ha : s.accessFault d = none := by simpa [State.cellFault, hd] using hc
  exact (State.accessFault_eq_none.1 ha).1

/-- A faultless instruction with two read parameters stores at the address its third names. -/
theorem State.afterBinary_eq_stored {s : State} {m1 m2 m3 : Mode} (f : Int → Int → Int) {d v : Int}
    (hn : s.binaryFault m1 m2 m3 = none)
    (hst : ((s.operandAddress 3 m3).map fun d => (d, f (s.operandValue 1 m1) (s.operandValue 2 m2))) = some (d, v)) :
    0 ≤ d ∧ ∃ (s0 : State) (n ip : Nat), s0.mem = s.mem ∧ s.afterBinary f m1 m2 m3 = s0.stored d v n ip := by
  obtain ⟨d', hd, hdv⟩ := Option.map_eq_some_iff.1 hst
  obtain ⟨rfl, rfl⟩ := Prod.mk.inj hdv
  obtain ⟨-, -, -, hc⟩ : s.readFault 1 m1 = none ∧ s.readFault 2 m2 = none ∧ s.targetFault 3 m3 = none ∧
      s.cellFault 3 m3 = none := by simpa [State.binaryFault] using hn
  exact ⟨State.operandAddress_nonneg hc hd, s, _, _, rfl, by rw [State.afterBinary, hd, Option.getD_some]⟩

/-- A faultless Input that completes stores the front of its queue, or the prompt's value (R100, R102). -/
theorem State.afterInput_eq_stored {s : State} {m : Mode} {d v : Int} (hn : firstFault (.input m) s = none)
    (hr : (s.afterInput m).status = .running) (hst : storeOf (.input m) s = some (d, v)) :
    0 ≤ d ∧ ∃ (s0 : State) (n ip : Nat), s0.mem = s.mem ∧ s.afterInput m = s0.stored d v n ip := by
  obtain ⟨d', hd, hdv⟩ := Option.map_eq_some_iff.1 hst
  obtain ⟨rfl, rfl⟩ := Prod.mk.inj hdv
  have nonneg (hw : s.waits = false) : 0 ≤ d' := by
    obtain ⟨-, hc⟩ : s.targetFault 1 m = none ∧ s.cellFault 1 m = none := by simpa [firstFault, hw] using hn
    exact State.operandAddress_nonneg hc hd
  rcases s.afterInput_cases m with ⟨v, rest, hq, ha⟩ | ⟨hq, hi, ha⟩ | ⟨-, -, ha⟩ <;> rw [ha] at hr ⊢
  · exact ⟨nonneg (by simp [State.waits, hq]), { s with inq := rest }, _, _, rfl, by rw [hd, hq]; rfl⟩
  · exact ⟨nonneg (by simp [State.waits, hi]), { s with drawn := s.drawn + 1 }, _, _, rfl, by rw [hd, hq]; rfl⟩
  · cases hr

/-- A storing instruction that completes leaves its store; `s0` is `s` with the stored value taken from its source. -/
theorem State.after_eq_stored {s : State} {i : Instr} {d v : Int} (hn : firstFault i s = none)
    (hr : (s.after i).status = .running) (hst : storeOf i s = some (d, v)) :
    0 ≤ d ∧ ∃ (s0 : State) (n ip : Nat), s0.mem = s.mem ∧ s.after i = s0.stored d v n ip := by
  cases i with
  | add | multiply => exact State.afterBinary_eq_stored _ hn hst
  | lessThan => exact State.afterBinary_eq_stored (fun a b => if a < b then 1 else 0) hn hst
  | equals => exact State.afterBinary_eq_stored (fun a b => if a = b then 1 else 0) hn hst
  | input => exact State.afterInput_eq_stored hn hr hst
  | output | jumpIfTrue | jumpIfFalse | adjustRelativeBase | halt => cases hst

/-- The fetch after a store at the new `ip` reads the stored value: the store has extended memory to hold it. -/
theorem State.fetch_stored {s : State} (h : s.mem.wf) {d : Int} (v : Int) (n : Nat) {ip : Nat} (hip : (ip : Int) = d) :
    (s.stored d v n ip).fetch = .ok v := by
  subst hip
  have hword : (s.stored ip v n ip).opcodeWord = some v :=
    State.opcodeWord_eq_some.2 ⟨by simp, by simp [Memory.get_set_self (Memory.wf_grow h n)]⟩
  rw [State.fetch, hword]

/-- A store leaves the cells at other addresses. -/
theorem State.get_stored_of_ne (s : State) {d : Int} (hd : 0 ≤ d) (v : Int) (n ip : Nat) {x : Nat}
    (hx : (x : Int) ≠ d) : (s.stored d v n ip).mem.get x = s.mem.get x :=
  Memory.get_set_ne _ v (by omega)

/-- Settles O50: a completing store is `State.stored`, whose new `ip` it either hits or misses. -/
theorem storeIsSeenByTheNextFetch : Obligations.StoreIsSeenByTheNextFetch := by
  intro i s t d v hwf h hr hst
  rcases exec_cases h with ⟨e, -, rfl⟩ | ⟨hn, rfl⟩
  · cases hr
  · obtain ⟨hd, s0, n, ip, hmem, ha⟩ := State.after_eq_stored hn hr hst
    rw [ha, ← hmem]
    exact ⟨fun hip => State.fetch_stored (hmem ▸ hwf) v n hip, fun hip => s0.get_stored_of_ne hd v n ip hip⟩

end Sys2Proof.Machine

/-! ## Proofs of the encoding family (30_encoding.md)

Decoding is `decodeFields` and then `select`; encoding goes the other way through `Instr.fields`. A number and its
fields are tied by `Fields.word` (R65): `decodeFields` reads back the fields of a word, and the word of the fields it
reads is the number without the digits at place 5 and above. -/

namespace Sys2Proof

open Machine (knownOpcodes select_opcode decodeWord_opcode)

/-! ### The number that fields are the digits of (R52, R65) -/

/-- The number with these fields: `opcode + 100*m1 + 1000*m2 + 10000*m3` (R65). -/
def Fields.word (f : Fields) : Int := f.opcode + 100 * f.m1 + 1000 * f.m2 + 10000 * f.m3

/-- Fields that a number has: a two-digit opcode and three decimal digits. -/
structure Fields.Decimal (f : Fields) : Prop where
  opcode_lt : f.opcode < 100
  m1_lt : f.m1 < 10
  m2_lt : f.m2 < 10
  m3_lt : f.m3 < 10

theorem decodeFields_of_lt {w : Int} (h : w < 100) :
    decodeFields w = { opcode := opcodeOf w, m1 := 0, m2 := 0, m3 := 0 } := if_pos h

/-- On a non-negative word the case below 100 of R52 is no exception: its higher digits are 0. -/
theorem decodeFields_of_nonneg {w : Int} (h : 0 ≤ w) :
    decodeFields w = { opcode := opcodeOf w, m1 := dig w 2, m2 := dig w 3, m3 := dig w 4 } := by
  unfold decodeFields
  split
  · simp only [dig, Fields.mk.injEq, true_and]
    omega
  · rfl

theorem decodeFields_word {f : Fields} (h : f.Decimal) : decodeFields f.word = f := by
  obtain ⟨h0, h1, h2, h3⟩ := h
  have hw : 0 ≤ f.word := by unfold Fields.word; omega
  rw [decodeFields_of_nonneg hw, Fields.mk.injEq]
  unfold opcodeOf dig Fields.word
  omega

theorem word_decodeFields {w : Int} (h : 0 ≤ w) : (decodeFields w).word = w % 100000 := by
  rw [decodeFields_of_nonneg h]
  simp only [Fields.word, opcodeOf, dig]
  omega

/-! ### The fields of an instruction (R65) -/

/-- The digit of parameter `k`, counted from 0; 0 where the instruction has no such parameter. -/
def Instr.modeDigit (i : Instr) (k : Nat) : Nat := i.params[k]?.elim 0 fun p => p.2.digit

/-- The fields of the canonical word. -/
def Instr.fields (i : Instr) : Fields where
  opcode := i.opcode
  m1 := i.modeDigit 0
  m2 := i.modeDigit 1
  m3 := i.modeDigit 2

theorem Instr.opcode_lt (i : Instr) : i.opcode < 100 := by
  cases i <;> simp [Instr.opcode]

theorem Instr.modeDigit_lt {i : Instr} (h : i.wellFormed = true) (k : Nat) : i.modeDigit k < 10 := by
  unfold Instr.modeDigit
  cases hk : i.params[k]? with
  | none => decide
  | some p => exact Mode.digit_lt (List.all_eq_true.1 h p (List.mem_of_getElem? hk))

theorem Instr.fields_decimal {i : Instr} (h : i.wellFormed = true) : i.fields.Decimal :=
  ⟨i.opcode_lt, modeDigit_lt h 0, modeDigit_lt h 1, modeDigit_lt h 2⟩

theorem encodeWord_eq_word (i : Instr) : encodeWord i = i.fields.word := by
  cases i <;>
    simp [encodeWord, modeDigits, Fields.word, Instr.fields, Instr.modeDigit, Instr.params] <;> omega

theorem encodeWord_nonneg (i : Instr) : 0 ≤ encodeWord i := Int.natCast_nonneg _

/-! ### The dispatch (R56, R57, R73) -/

theorem select_fields {i : Instr} (h : i.wellFormed = true) : select i.fields = .ok i := by
  cases i <;>
    simp_all [Instr.wellFormed, Instr.fields, Instr.modeDigit, Instr.params, Instr.opcode, select, Mode.ofDigit_digit]

/-- The digits no parameter uses are dropped (R58), so the fields of a selected instruction have no larger number. -/
theorem fields_word_le_of_select {f : Fields} {i : Instr} (h : select f = .ok i) : i.fields.word ≤ f.word := by
  obtain ⟨op, m1, m2, m3⟩ := f
  unfold select at h
  split at h <;> cases h <;>
    simp_all [Fields.word, Instr.fields, Instr.modeDigit, Instr.params, Instr.opcode, Mode.digit_ofDigit] <;> omega

theorem wellFormed_of_select {f : Fields} {i : Instr} (hf : f.m1 < 10 ∧ f.m2 < 10 ∧ f.m3 < 10)
    (h : select f = .ok i) : i.wellFormed = true := by
  obtain ⟨h1, h2, h3⟩ := hf
  unfold select at h
  split at h <;> cases h <;> simp [Instr.wellFormed, Instr.params, Mode.wellFormed_ofDigit, h1, h2, h3]

theorem select_of_known {f : Fields} (h : f.opcode ∈ knownOpcodes) : ∃ i, select f = .ok i := by
  unfold select
  split
  case h_11 => simp_all [knownOpcodes]
  all_goals exact ⟨_, rfl⟩

theorem select_of_unknown {f : Fields} (h : f.opcode ∉ knownOpcodes) :
    select f = .error (.unknownOpcode f.opcode) := by
  unfold select
  split
  case h_11 => rfl
  all_goals simp_all [knownOpcodes]

theorem decodeWord_wellFormed {w : Int} {i : Instr} (h : decodeWord w = .ok i) : i.wellFormed = true :=
  wellFormed_of_select (decodeFields_digits w) h

/-! ### The obligations -/

/-- Settles O2: the word of an instruction's fields decodes to those fields, and they select the instruction. -/
theorem decodeOfEncodeIsIdentity : Obligations.DecodeOfEncodeIsIdentity := by
  intro i h
  calc decodeWord (encodeWord i)
    _ = select (decodeFields i.fields.word) := by rw [encodeWord_eq_word, decodeWord]
    _ = select i.fields := by rw [decodeFields_word (Instr.fields_decimal h)]
    _ = .ok i := select_fields h

/-- Settles O3: the opcode word decodes alone (O2), and gives the number of words to take. -/
theorem wordsDecodeBackToTheInstruction : Obligations.WordsDecodeBackToTheInstruction := by
  intro i ps rest h hps
  refine ⟨encodeWord i, ps ++ rest, rfl, ?_⟩
  simp [decodeWords, decodeOfEncodeIsIdentity i h, ← hps]

/-- Settles O4: the modes of a decoded instruction are decimal digits of the word. -/
theorem decodedInstructionsAreWellFormed : Obligations.DecodedInstructionsAreWellFormed :=
  fun _ _ h => ⟨decodeWord_wellFormed h, (decodeWord_opcode h).symm⟩

/-- Settles O5: the dispatch looks at the opcode value alone. -/
theorem onlyTheTenOpcodesDecode : Obligations.OnlyTheTenOpcodesDecode := by
  intro w
  rw [← decodeFields_opcode]
  exact ⟨select_of_known, select_of_unknown⟩

/-- Settles O6: no field of a non-negative word is at place 5 or above. -/
theorem highDigitsAreIgnored : Obligations.HighDigitsAreIgnored := by
  intro w n h
  have hf : decodeFields (w + 100000 * n) = decodeFields w := by
    rw [decodeFields_of_nonneg h, decodeFields_of_nonneg (by omega), Fields.mk.injEq]
    unfold opcodeOf dig
    omega
  rw [decodeWord, hf, decodeWord]

/-- Settles O7: both words are below 100 and have the same remainder. -/
theorem negativeWordDecodesAsItsRemainder : Obligations.NegativeWordDecodesAsItsRemainder := by
  intro w h
  have hop : opcodeOf (w % 100) = opcodeOf w := by rw [opcodeOf, Int.emod_emod, opcodeOf]
  rw [decodeWord, decodeFields_of_lt (by omega : w < 100), decodeWord,
    decodeFields_of_lt (by omega : w % 100 < 100), hop]

/-- Settles O8: the canonical word is the number of the decoded fields without the digits no parameter uses, and that
number is a remainder of `w`. -/
theorem canonicalWordIsTheSmallest : Obligations.CanonicalWordIsTheSmallest := by
  intro w i hw h
  refine ⟨decodeOfEncodeIsIdentity i (decodeWord_wellFormed h), encodeWord_nonneg i, ?_⟩
  calc encodeWord i
    _ = i.fields.word := encodeWord_eq_word i
    _ ≤ (decodeFields w).word := fields_word_le_of_select h
    _ = w % 100000 := word_decodeFields hw
    _ ≤ w := by omega

/-- Settles O1, by evaluating the decoder on each word. -/
theorem sampleWordsDecodeAsTheSpecSays : Obligations.SampleWordsDecodeAsTheSpecSays := by
  unfold Obligations.SampleWordsDecodeAsTheSpecSays
  decide

end Sys2Proof

/-! ## Proofs of the execution-cycle family (40_execution_cycle_and_operands.md)

A step is fetch, dispatch and `exec` (R70); RUN repeats it (R71). The move of `ip` (R77) is said once for `State.after`,
since fault entry leaves `ip` alone. -/

namespace Sys2Proof.Machine

/-! ### Fetch and dispatch (R72, R73) -/

/-- On a machine with neither strict option the dispatch gives what the decoder gives (D2, D4). -/
theorem decodeFor_of_not_strict {cfg : Config} (hneg : cfg.negWordFaults = false)
    (hstrict : cfg.strictOpcodeWord = false) {w : Int} {i : Instr} (h : decodeWord w = .ok i) :
    decodeFor cfg w = .ok i := by
  simp [decodeFor, hneg, hstrict, h]

theorem State.nextInstr_of_opcodeWord {s : State} {w : Int} (h : s.opcodeWord = some w) :
    s.nextInstr = decodeFor s.cfg w := by
  simp [State.nextInstr, State.fetch, h]

theorem step_of_nextInstr {s : State} {i : Instr} (hl : s.status.live = true) (h : s.nextInstr = .ok i) :
    step s = exec i s := by
  simp [step, hl, h]

/-- Settles O10: the first clause is the second on a machine whose dispatch is the decoder's. -/
theorem stepRunsTheDecodedInstruction : Obligations.StepRunsTheDecodedInstruction := by
  have dispatched (s : State) (w : Int) (i : Instr) (hl : s.status.live = true) (hw : s.opcodeWord = some w)
      (hd : decodeFor s.cfg w = .ok i) : step s = exec i s :=
    step_of_nextInstr hl ((State.nextInstr_of_opcodeWord hw).trans hd)
  refine ⟨fun s w i hl hw hneg hstrict hd => ?_, dispatched⟩
  exact dispatched s w i hl hw (decodeFor_of_not_strict hneg hstrict hd)

/-- Settles O11: `step_eq` and `exec_eq` name the next state. -/
theorem everyStepAnswersANextState : Obligations.EveryStepAnswersANextState :=
  ⟨fun s => ⟨_, step_eq s⟩, fun i s => ⟨_, exec_eq i s⟩⟩

/-! ### The move of the instruction pointer (R77) -/

/-- A faultless instruction that halts or suspends leaves `ip` where it is (R135, R147). -/
theorem State.after_ip_of_not_running {s : State} {i : Instr} (h : (s.after i).status ≠ .running) :
    (s.after i).ip = s.ip := by
  rcases s.after_ending i with ⟨-, ha⟩ | ⟨-, ha⟩ | ⟨-, -, hr⟩
  · rw [ha, State.halt_ip]
  · rw [ha, State.suspend_ip]
  · exact absurd hr h

theorem State.afterInput_ip_of_running {s : State} {m : Mode} (h : (s.afterInput m).status = .running) :
    (s.afterInput m).ip = s.ip + 2 := by
  rcases s.afterInput_cases m with ⟨_, _, -, ha⟩ | ⟨-, -, ha⟩ | ⟨-, -, ha⟩ <;> rw [ha] at h ⊢
  · rfl
  · rfl
  · cases h

/-- A faultless taken jump has a target that is not negative (R112, D6). -/
theorem State.target_nonneg_of_jumpFault {s : State} {taken : Int → Bool} {m1 m2 : Mode}
    (h : s.jumpFault taken m1 m2 = none) (ht : taken (s.operandValue 1 m1) = true) : 0 ≤ s.operandValue 2 m2 := by
  obtain ⟨-, -, hnonneg⟩ : s.readFault 1 m1 = none ∧ s.readFault 2 m2 = none ∧ 0 ≤ s.operandValue 2 m2 := by
    simpa [State.jumpFault, ht] using h
  exact hnonneg

/-- A faultless jump moves `ip` to its target when it is taken, and past its three words otherwise (R112). -/
theorem State.afterJump_ip {s : State} {taken : Int → Bool} {m1 m2 : Mode} (h : s.jumpFault taken m1 m2 = none) :
    ((s.afterJump taken m1 m2).ip : Int) =
      if taken (s.operandValue 1 m1) then s.operandValue 2 m2 else s.ip + 3 := by
  rw [State.afterJump, State.complete_ip]
  split
  next ht => exact Int.toNat_of_nonneg (State.target_nonneg_of_jumpFault h ht)
  next => rfl

/-- Settles O44: fault entry keeps `ip`, and a faultless instruction that completes moves it by its own rule. -/
theorem instructionPointerMovesByTheRule : Obligations.InstructionPointerMovesByTheRule := by
  intro i s t h
  rcases exec_cases h with ⟨e, -, rfl⟩ | ⟨hn, rfl⟩
  · exact ⟨fun _ => rfl, nofun⟩
  · refine ⟨State.after_ip_of_not_running, fun hr => ?_⟩
    cases i with
    | add | multiply | lessThan | equals => rfl
    | output | adjustRelativeBase => rfl
    | input m => exact State.afterInput_ip_of_running hr
    | jumpIfTrue => simpa [State.after] using State.afterJump_ip (taken := fun c => decide (c ≠ 0)) hn
    | jumpIfFalse => simpa [State.after] using State.afterJump_ip (taken := fun c => decide (c = 0)) hn
    | halt => cases hr

/-! ### RUN (R71) -/

/-- One turn of the loop of RUN. -/
theorem runLoop_succ {s t : State} (h : step s = .next t) (fuel : Nat) :
    runLoop (fuel + 1) s = if t.status = .running then runLoop fuel t else some t := by
  rw [runLoop, h]

theorem runsTo_of_runLoop : ∀ {fuel : Nat} {s t : State}, runLoop fuel s = some t → RunsTo s t
  | 0, _, _, h => nomatch h
  | fuel + 1, s, t, h => by
    obtain ⟨u, hu⟩ : ∃ u, step s = .next u := ⟨_, step_eq s⟩
    rw [runLoop_succ hu] at h
    split at h
    next hr => exact .more hu hr (runsTo_of_runLoop h)
    next hr => exact .last (Option.some.inj h ▸ hu) (Option.some.inj h ▸ hr)

/-- The fuel a run needs is the number of its steps. -/
theorem RunsTo.exists_runLoop {s t : State} (h : RunsTo s t) : ∃ fuel, runLoop fuel s = some t := by
  induction h with
  | last hstep hr => exact ⟨1, by rw [runLoop_succ hstep, if_neg hr]⟩
  | more hstep hr _ ih =>
    obtain ⟨fuel, hf⟩ := ih
    exact ⟨fuel + 1, by rw [runLoop_succ hstep, if_pos hr, hf]⟩

theorem State.run_of_live {s : State} (h : s.status.live = true) (fuel : Nat) : s.run fuel = runLoop fuel s := by
  rw [State.run, if_pos h]

theorem State.run_of_not_live {s : State} (h : s.status.live = false) (fuel : Nat) : s.run fuel = some s := by
  simp [State.run, h]

theorem perform_run {s t : State} {fuel : Nat} (h : s.run fuel = some t) :
    perform s (.run fuel) = (t, .status t.status) := by
  rw [perform, h]

/-- Settles O53: from a live state RUN is its loop, which is `RunsTo`; from any other it answers the state at once. -/
theorem runRepeatsStepsUntilNotRunning : Obligations.RunRepeatsStepsUntilNotRunning := by
  refine ⟨fun s t hl => ?_, fun s fuel hl => perform_run (State.run_of_not_live hl fuel), fun _ _ _ => perform_run⟩
  simp only [State.run_of_live hl]
  exact ⟨fun ⟨_, hf⟩ => runsTo_of_runLoop hf, RunsTo.exists_runLoop⟩

end Sys2Proof.Machine

/-! ## Proofs of the arithmetic family (41_arithmetic.md)

What an instruction with two read parameters and a write parameter leaves is `State.afterBinary`; that it stores as
claims state it, and where it stores, is said here once for every such instruction. -/

namespace Sys2Proof.Machine

/-! ### A faultless instruction with two read parameters and a write parameter -/

theorem State.binaryFault_parts {s : State} {m1 m2 m3 : Mode} (h : s.binaryFault m1 m2 m3 = none) :
    s.readFault 1 m1 = none ∧ s.readFault 2 m2 = none ∧ s.targetFault 3 m3 = none ∧ s.cellFault 3 m3 = none := by
  simpa [State.binaryFault] using h

/-- The length a parameter that names `d` needs covers its word and the cell at `d` (R33). -/
theorem State.reach_of_operandAddress {s : State} {k : Nat} {m : Mode} {d : Int} (h : s.operandAddress k m = some d) :
    s.reach k m = max (s.ip + k + 1) (d.toNat + 1) := by
  rw [State.reach, h]

/-- It stores its result at the address of its third parameter, as claims state it. -/
theorem State.afterBinary_storesAndAdvances {s : State} {m1 m2 m3 : Mode} {d : Int} (f : Int → Int → Int)
    (hwf : s.mem.wf) (hn : s.binaryFault m1 m2 m3 = none) (hd : s.operandAddress 3 m3 = some d) :
    StoresAndAdvances s (s.afterBinary f m1 m2 m3) d (f (s.operandValue 1 m1) (s.operandValue 2 m2))
      (max (max (s.reach 1 m1) (s.reach 2 m2)) (s.reach 3 m3)) (s.ip + 4) := by
  obtain ⟨-, -, -, hc⟩ := State.binaryFault_parts hn
  rw [State.afterBinary, hd, Option.getD_some, State.reach_of_operandAddress hd, ← Nat.max_assoc]
  exact State.stored_storesAndAdvances hwf (State.operandAddress_nonneg hc hd) _ _ _

/-- Settles O17: Add is the binary instruction whose result is the sum. -/
theorem addStoresTheSum : Obligations.AddStoresTheSum :=
  fun s m1 m2 m3 _ hwf hn hd =>
    ⟨s.after (.add m1 m2 m3), exec_of_noFault hn, State.afterBinary_storesAndAdvances (fun a b => a + b) hwf hn hd⟩

/-- Settles O18: Multiply is the binary instruction whose result is the product. -/
theorem multiplyStoresTheProduct : Obligations.MultiplyStoresTheProduct :=
  fun s m1 m2 m3 _ hwf hn hd =>
    ⟨s.after (.multiply m1 m2 m3), exec_of_noFault hn,
      State.afterBinary_storesAndAdvances (fun a b => a * b) hwf hn hd⟩

/-! ### The frame of the four (C4) -/

/-- Add, Multiply, LessThan and Equals differ in their result alone. -/
theorem State.after_eq_afterBinary {i : Instr} {m1 m2 m3 : Mode}
    (hi : i = .add m1 m2 m3 ∨ i = .multiply m1 m2 m3 ∨ i = .lessThan m1 m2 m3 ∨ i = .equals m1 m2 m3) (s : State) :
    firstFault i s = s.binaryFault m1 m2 m3 ∧ ∃ f : Int → Int → Int, s.after i = s.afterBinary f m1 m2 m3 := by
  rcases hi with rfl | rfl | rfl | rfl
  · exact ⟨rfl, fun a b => a + b, rfl⟩
  · exact ⟨rfl, fun a b => a * b, rfl⟩
  · exact ⟨rfl, fun a b => if a < b then 1 else 0, rfl⟩
  · exact ⟨rfl, fun a b => if a = b then 1 else 0, rfl⟩

/-- When no parameter faults, the resolution gives the address of the third parameter, and it is not negative. -/
theorem State.resolveThree_of_noFault {s : State} {m1 m2 m3 : Mode} (hn : s.binaryFault m1 m2 m3 = none) :
    ∃ a b d u, s.resolveThree m1 m2 m3 = .ok (a, b, d, u) ∧ s.operandAddress 3 m3 = some d ∧ 0 ≤ d := by
  obtain ⟨h1, h2, h3, hc⟩ := State.binaryFault_parts hn
  obtain ⟨d, hd⟩ := State.operandAddress_of_targetFault h3
  exact ⟨_, _, d, _, by rw [State.resolveThree_eq, h1, h2, h3, hd]; rfl, hd, State.operandAddress_nonneg hc hd⟩

/-- Settles O30: fault entry leaves memory alone, and a faultless one leaves a store at the address resolved. -/
theorem binaryInstructionsFrame : Obligations.BinaryInstructionsFrame := by
  intro i m1 m2 m3 s t hi h
  obtain ⟨hfault, f, hafter⟩ := State.after_eq_afterBinary hi s
  rcases exec_cases h with ⟨e, -, rfl⟩ | ⟨hn, rfl⟩
  · exact ⟨⟨rfl, rfl, rfl, rfl, rfl, rfl⟩, fun hs => absurd rfl hs, fun _ _ _ _ _ _ _ => rfl, fun _ _ _ => rfl⟩
  · obtain ⟨a, b, d, u, hres, hd, hnonneg⟩ := State.resolveThree_of_noFault (hfault.symm.trans hn)
    rw [hafter, hres, State.afterBinary, hd, Option.getD_some]
    refine ⟨⟨rfl, rfl, rfl, rfl, rfl, rfl⟩, fun _ => rfl, ?_, nofun⟩
    rintro _ _ _ _ ⟨⟩ x hx
    exact s.get_stored_of_ne hnonneg _ _ _ hx

end Sys2Proof.Machine

/-! ## Proofs of the input/output family (42_io.md)

What an Input leaves is `State.afterInput`, in the three forms of `State.afterInput_cases`; what the instructions that
store nothing leave is read off `State.after`. A resumed run is followed step by step: a step that leaves Running on a
core that never prompts does the same with one more element at the back of the input queue. -/

namespace Sys2Proof.Machine

/-! ### An Input that completes (R100, R102) -/

theorem State.waits_eq_false_of_cons {s : State} {v : Int} {rest : List Int} (h : s.inq = v :: rest) :
    s.waits = false := by
  simp [State.waits, h]

theorem State.waits_eq_false_of_interactive {s : State} (h : s.interactive = true) : s.waits = false := by
  simp [State.waits, h]

/-- An Input that need not wait meets the faults of its parameter. -/
theorem firstFault_input_of_not_waits {s : State} (h : s.waits = false) (m1 : Mode) :
    firstFault (.input m1) s = (s.targetFault 1 m1).or (s.cellFault 1 m1) := by
  simp [firstFault, h]

theorem State.afterInput_of_cons {s : State} {v : Int} {rest : List Int} (h : s.inq = v :: rest) (m1 : Mode) :
    s.afterInput m1 =
      ({ s with inq := rest } : State).stored ((s.operandAddress 1 m1).getD 0) v (s.ip + 1 + 1) (s.ip + 2) := by
  rw [State.afterInput, h]

theorem State.afterInput_of_prompt {s : State} (hq : s.inq = []) (hi : s.interactive = true) (m1 : Mode) :
    s.afterInput m1 =
      ({ s with drawn := s.drawn + 1 } : State).stored ((s.operandAddress 1 m1).getD 0) (Config.promptValue s.drawn)
        (s.ip + 1 + 1) (s.ip + 2) := by
  simp [State.afterInput, hq, hi]

/-- The store of an Input as claims state it; `s0` is `s` with the value taken from its source. -/
theorem State.inputStore_storesAndAdvances {s s0 : State} {m1 : Mode} {d : Int} (v : Int) (hmem : s0.mem = s.mem)
    (hwf : s.mem.wf) (hn : (s.targetFault 1 m1).or (s.cellFault 1 m1) = none) (hd : s.operandAddress 1 m1 = some d) :
    StoresAndAdvances s0 (s0.stored ((s.operandAddress 1 m1).getD 0) v (s.ip + 1 + 1) (s.ip + 2)) d v
      (s.reach 1 m1) (s.ip + 2) := by
  obtain ⟨-, hc⟩ := Option.or_eq_none_iff.1 hn
  rw [hd, Option.getD_some, State.reach_of_operandAddress hd]
  exact State.stored_storesAndAdvances (hmem ▸ hwf) (State.operandAddress_nonneg hc hd) v _ _

/-- Settles O21: the value is taken from the queue and then stored. -/
theorem inputStoresTheFrontOfItsQueue : Obligations.InputStoresTheFrontOfItsQueue := by
  intro s m1 d v rest hwf hq hn hd
  have hfault := (firstFault_input_of_not_waits (State.waits_eq_false_of_cons hq) m1).trans hn
  refine ⟨s.afterInput m1, exec_of_noFault hfault, ?_⟩
  rw [State.afterInput_of_cons hq]
  exact State.inputStore_storesAndAdvances v rfl hwf hn hd

/-- Settles O23: the value is taken from the prompt and then stored. -/
theorem interactiveInputStoresThePromptValue : Obligations.InteractiveInputStoresThePromptValue := by
  intro s m1 d hwf hq hi hn hd
  have hfault := (firstFault_input_of_not_waits (State.waits_eq_false_of_interactive hi) m1).trans hn
  refine ⟨s.afterInput m1, exec_of_noFault hfault, ?_⟩
  rw [State.afterInput_of_prompt hq hi]
  exact State.inputStore_storesAndAdvances _ rfl hwf hn hd

/-! ### Output (R101) -/

/-- Settles O24: without a fault an Output only extends memory and appends. -/
theorem outputAppendsItsOperand : Obligations.OutputAppendsItsOperand := by
  intro s m1 hr hroom
  have hfault : firstFault (.output m1) s = none := by simp [firstFault, hr, hroom]
  exact ⟨s.after (.output m1), exec_of_noFault hfault, rfl, rfl, fun _ => rfl⟩

/-! ### The frame of Input (R13, R14, R20) -/

/-- Where a faultless Input takes its value: the front of its queue, or a prompt when the queue is empty. -/
theorem State.afterInput_sources (s : State) (m1 : Mode) :
    ((s.afterInput m1).inq = s.inq ∨ (s.afterInput m1).inq = s.inq.tail) ∧
    ((s.afterInput m1).drawn = s.drawn ∨
      ((s.afterInput m1).drawn = s.drawn + 1 ∧ s.inq = [] ∧ s.interactive = true)) := by
  rcases s.afterInput_cases m1 with ⟨v, rest, hq, ha⟩ | ⟨hq, hi, ha⟩ | ⟨-, -, ha⟩ <;> rw [ha]
  · exact ⟨.inr (by rw [hq]; rfl), .inl rfl⟩
  · exact ⟨.inl rfl, .inr ⟨rfl, hq, hi⟩⟩
  · exact ⟨.inl rfl, .inl rfl⟩

theorem State.afterInput_of_waits {s : State} (h : s.waits = true) (m1 : Mode) : s.afterInput m1 = s.suspend := by
  obtain ⟨hq, hi⟩ := State.waits_iff.1 h
  simp [State.afterInput, hq, hi]

theorem State.afterInput_running_of_not_waits {s : State} (h : s.waits = false) (m1 : Mode) :
    (s.afterInput m1).status = .running := by
  rcases s.afterInput_cases m1 with ⟨_, _, -, ha⟩ | ⟨-, -, ha⟩ | ⟨hq, hi, -⟩
  · rw [ha, State.stored_status]
  · rw [ha, State.stored_status]
  · rw [State.waits_iff.2 ⟨hq, hi⟩] at h
    cases h

/-- When its parameter does not fault, an Input resolves it to the address `storeOf` gives. -/
theorem State.writeTarget_of_noFault {s : State} {m1 : Mode} (hw : s.waits = false)
    (hn : firstFault (.input m1) s = none) :
    ∃ d u v, s.writeTarget 1 m1 = .ok (d, u) ∧ storeOf (.input m1) s = some (d, v) := by
  rw [firstFault_input_of_not_waits hw, Option.or_eq_none_iff] at hn
  obtain ⟨ht, -⟩ := hn
  obtain ⟨d, hd⟩ := State.operandAddress_of_targetFault ht
  exact ⟨d, _, _, by rw [State.writeTarget_eq, ht, hd]; rfl, by rw [storeOf, hd]; rfl⟩

/-- A faultless Input leaves memory alone when it suspends, and otherwise all of it but the cell it resolves. -/
theorem State.afterInput_mem {s : State} {m1 : Mode} (hn : firstFault (.input m1) s = none) :
    (s.afterInput m1).mem = s.mem ∨
    ((s.afterInput m1).status = .running ∧ ∃ d u, s.writeTarget 1 m1 = .ok (d, u) ∧
      ∀ x : Nat, (x : Int) ≠ d → (s.afterInput m1).mem.get x = s.mem.get x) := by
  cases hw : s.waits with
  | true => exact .inl (by rw [State.afterInput_of_waits hw, State.suspend_mem])
  | false =>
    have hr := State.afterInput_running_of_not_waits hw m1
    obtain ⟨d, u, v, hres, hst⟩ := State.writeTarget_of_noFault hw hn
    obtain ⟨hd, s0, n, ip, hmem, ha⟩ := State.afterInput_eq_stored hn hr hst
    refine .inr ⟨hr, d, u, hres, fun x hx => ?_⟩
    rw [ha, ← hmem]
    exact s0.get_stored_of_ne hd v n ip hx

/-- Settles O31: fault entry and suspension leave memory alone, and a completing Input leaves a store at the address
resolved. -/
theorem inputFrame : Obligations.InputFrame := by
  intro m1 s t h
  rcases exec_cases h with ⟨e, -, rfl⟩ | ⟨hn, rfl⟩
  · exact ⟨⟨rfl, rfl, rfl, rfl⟩, fun hs => absurd rfl hs, .inl rfl, .inl rfl, fun _ _ _ _ _ => rfl,
      fun _ _ _ => rfl, nofun⟩
  · obtain ⟨hinq, hdrawn⟩ := s.afterInput_sources m1
    have hrb : (s.afterInput m1).rb = s.rb := State.after_rb (i := .input m1) nofun
    have houtq : (s.afterInput m1).outq = s.outq := (s.after_outq (.input m1)).trans (List.append_nil _)
    refine ⟨⟨hrb, houtq, s.after_interactive _, s.after_cfg _⟩, fun _ => s.after_cause _, hinq, hdrawn, ?_⟩
    rcases State.afterInput_mem hn with hmem | ⟨hr, d, u, hres, hget⟩
    · rw [State.after, hmem]
      exact ⟨fun _ _ _ _ _ => rfl, fun _ _ _ => rfl, fun _ => rfl⟩
    · rw [State.after, hres, hr]
      refine ⟨?_, nofun, nofun⟩
      rintro _ _ ⟨⟩
      exact hget

/-! ### The frame of the five that store nothing (C4) -/

/-- Such an instruction may lengthen memory, but every address reads as before; of the registers it changes its own. -/
theorem State.after_storesNothing {i : Instr} {m1 m2 : Mode}
    (hi : i = .output m1 ∨ i = .jumpIfTrue m1 m2 ∨ i = .jumpIfFalse m1 m2 ∨ i = .adjustRelativeBase m1 ∨ i = .halt)
    (s : State) :
    (∀ x : Nat, (s.after i).mem.get x = s.mem.get x) ∧ (s.after i).inq = s.inq ∧ (s.after i).drawn = s.drawn ∧
      (i ≠ .output m1 → (s.after i).outq = s.outq) ∧ (i ≠ .adjustRelativeBase m1 → (s.after i).rb = s.rb) := by
  rcases hi with rfl | rfl | rfl | rfl | rfl
  · exact ⟨fun _ => rfl, rfl, rfl, fun hne => absurd rfl hne, fun _ => rfl⟩
  · exact ⟨fun _ => rfl, rfl, rfl, fun _ => rfl, fun _ => rfl⟩
  · exact ⟨fun _ => rfl, rfl, rfl, fun _ => rfl, fun _ => rfl⟩
  · exact ⟨fun _ => rfl, rfl, rfl, fun _ => rfl, fun hne => absurd rfl hne⟩
  · exact ⟨fun _ => rfl, rfl, rfl, fun _ => rfl, fun _ => rfl⟩

/-- Settles O32: fault entry changes the status and the record alone, and a faultless one what
`State.after_storesNothing` says. -/
theorem nonStoringInstructionsFrame : Obligations.NonStoringInstructionsFrame := by
  intro i m1 m2 s t hi h
  rcases exec_cases h with ⟨e, -, rfl⟩ | ⟨-, rfl⟩
  · exact ⟨fun _ => rfl, ⟨rfl, rfl, rfl, rfl⟩, fun _ => rfl, fun _ => rfl, fun hs => absurd rfl hs⟩
  · obtain ⟨hmem, hinq, hdrawn, houtq, hrb⟩ := State.after_storesNothing hi s
    exact ⟨hmem, ⟨hinq, s.after_interactive i, s.after_cfg i, hdrawn⟩, houtq, hrb, fun _ => s.after_cause i⟩

/-! ### Suspension (R105) -/

/-- A step that leaves a live status began in one (R70). -/
theorem live_of_step {s t : State} (h : step s = .next t) (ht : t.status.live = true) : s.status.live = true := by
  rcases step_cases h with ⟨-, rfl⟩ | ⟨hl, -⟩ | ⟨hl, -⟩
  · exact ht
  · exact hl
  · exact hl

/-- A step that leaves Suspended has executed an Input that must wait, and has changed nothing but the status (D11). -/
theorem step_suspended {s t : State} (h : step s = .next t) (ht : t.status = .suspended) :
    (∃ m, s.nextInstr = .ok (.input m)) ∧ s.waits = true ∧ t = s.suspend := by
  have hl : s.status.live = true := live_of_step h (by rw [ht]; rfl)
  obtain ⟨-, hsuspended, -, -⟩ := (stepMovesTheStatusByTheTable s t h).right hl
  obtain ⟨hw, m, hm⟩ := hsuspended.1 ht
  have hnone : firstFault (.input m) s = none := by simp [firstFault, hw]
  have hstep : step s = .next (s.afterInput m) := (step_of_nextInstr hl hm).trans (exec_of_noFault hnone)
  exact ⟨⟨m, hm⟩, hw, (Host.Outcome.next.inj (h.symm.trans hstep)).trans (State.afterInput_of_waits hw m)⟩

theorem Status.eq_suspended_of_live {st : Status} (hl : st.live = true) (hready : st ≠ .ready)
    (hrunning : st ≠ .running) : st = .suspended := by
  cases st with
  | ready => exact absurd rfl hready
  | running => exact absurd rfl hrunning
  | suspended => rfl
  | halted | failed => cases hl

/-- A run that ends live ends Suspended: its last step leaves neither Ready nor Running. -/
theorem RunsTo.suspended_of_live {s t : State} (h : RunsTo s t) (ht : t.status.live = true) :
    t.status = .suspended := by
  induction h with
  | last hstep hr =>
    obtain ⟨-, -, -, hready⟩ := (stepMovesTheStatusByTheTable _ _ hstep).right (live_of_step hstep ht)
    exact Status.eq_suspended_of_live ht hready hr
  | more _ _ _ ih => exact ih ht

/-- Settles O43: a step suspends only at a waiting Input, and RUN on a live core ends as `RunsTo` does. -/
theorem onlyAnEmptyInputSuspends : Obligations.OnlyAnEmptyInputSuspends := by
  refine ⟨fun s t _ h ht => ?_, fun s t fuel h ht => ?_⟩
  · obtain ⟨hinput, hw, -⟩ := step_suspended h ht
    exact ⟨hinput, State.waits_iff.1 hw⟩
  · cases hl : s.status.live with
    | true =>
      rw [State.run_of_live hl] at h
      exact (runsTo_of_runLoop h).suspended_of_live ht
    | false =>
      rw [State.run_of_not_live hl] at h
      obtain rfl := Option.some.inj h
      cases hl.symm.trans ht

/-! ### Resuming with one more input (R154) -/

/-- Every ending of an instruction sets the status, so none depends on the status it began in (R70). -/
theorem exec_withStatus (i : Instr) (s : State) (st : Status) : exec i { s with status := st } = exec i s := by
  have hfault : firstFault i { s with status := st } = firstFault i s := rfl
  have hafter : ({ s with status := st } : State).after i = s.after i := rfl
  rw [exec_eq, exec_eq, hfault, hafter]
  rfl

/-- Which of the live statuses a core has makes no difference to its next step. -/
theorem step_withStatus {s : State} {st : Status} (hl : s.status.live = true) (hst : st.live = true) :
    step { s with status := st } = step s := by
  have hnext : ({ s with status := st } : State).nextInstr = s.nextInstr := rfl
  cases hi : s.nextInstr with
  | ok i =>
    rw [step_of_nextInstr hst (hnext.trans hi), step_of_nextInstr hl hi]
    exact exec_withStatus i s st
  | error e =>
    simp only [step, hl, hst, if_true, hnext, hi]
    rfl

/-- An Input that takes the front of its queue does so with one more element at the back. -/
theorem exec_input_pushIn {s t : State} {m : Mode} {v : Int} {rest : List Int} (hq : s.inq = v :: rest)
    (h : exec (.input m) s = .next t) (hr : t.status = .running) (w : Int) :
    exec (.input m) (s.pushIn w) = .next (t.pushIn w) := by
  have hpush : (s.pushIn w).inq = v :: (rest ++ [w]) := by rw [State.pushIn_inq, hq, List.cons_append]
  rcases exec_cases h with ⟨e, -, rfl⟩ | ⟨hn, rfl⟩
  · cases hr
  · rw [firstFault_input_of_not_waits (State.waits_eq_false_of_cons hq)] at hn
    have hfault : firstFault (.input m) (s.pushIn w) = none :=
      (firstFault_input_of_not_waits (State.waits_eq_false_of_cons hpush) m).trans hn
    rw [exec_of_noFault hfault, State.after, State.after, State.afterInput_of_cons hq,
      State.afterInput_of_cons hpush]
    rfl

/-- No other instruction looks at the input queue. -/
theorem exec_pushIn_of_ne_input {i : Instr} {s t : State} (hi : ∀ m, i ≠ .input m) (h : exec i s = .next t)
    (w : Int) : exec i (s.pushIn w) = .next (t.pushIn w) := by
  have hinq : t.inq = s.inq := by
    rcases exec_cases h with ⟨e, -, rfl⟩ | ⟨-, rfl⟩
    · rfl
    · exact (s.after_inq i).elim id fun ⟨m, _, him, _⟩ => absurd him (hi m)
  rw [State.pushIn, State.pushIn, hinq]
  exact exec_withInq hi h (s.inq ++ [w])

/-- An instruction that completes on a core that never prompts does the same with one more element at the back of the
input queue. -/
theorem exec_pushIn {i : Instr} {s t : State} (hprompt : s.interactive = false) (h : exec i s = .next t)
    (hr : t.status = .running) (w : Int) : exec i (s.pushIn w) = .next (t.pushIn w) := by
  by_cases hin : ∃ m, i = .input m
  · obtain ⟨m, rfl⟩ := hin
    cases hq : s.inq with
    | cons v rest => exact exec_input_pushIn hq h hr w
    | nil =>
      obtain ⟨-, hsuspended, -, -⟩ := exec_status h
      have ht := hsuspended.2 ⟨State.waits_iff.2 ⟨hq, hprompt⟩, m, rfl⟩
      cases hr.symm.trans ht
  · exact exec_pushIn_of_ne_input (not_exists.1 hin) h w

/-- A step that leaves Running on a core that never prompts does the same with one more element at the back of the
input queue. -/
theorem step_pushIn {s t : State} (hprompt : s.interactive = false) (h : step s = .next t)
    (hr : t.status = .running) (w : Int) : step (s.pushIn w) = .next (t.pushIn w) := by
  rcases step_cases h with ⟨hl, rfl⟩ | ⟨-, e, -, rfl⟩ | ⟨hl, i, hi, hx⟩
  · rw [hr] at hl
    cases hl
  · cases hr
  · have hdispatch : step (s.pushIn w) = exec i (s.pushIn w) := step_of_nextInstr hl hi
    exact hdispatch.trans (exec_pushIn hprompt hx hr w)

/-- A run ends Suspended only on a core that never prompts, and no step makes it one. -/
theorem RunsTo.not_interactive {s t : State} (h : RunsTo s t) (ht : t.status = .suspended) :
    s.interactive = false := by
  induction h with
  | last hstep _ =>
    obtain ⟨-, hw, -⟩ := step_suspended hstep ht
    exact (State.waits_iff.1 hw).right
  | more hstep _ _ ih => exact (State.precedes_step hstep).interactive.symm.trans (ih ht)

/-- A run depends on its first state only through the first step. -/
theorem RunsTo.of_step_eq {s s' u : State} (hs : step s' = step s) (h : RunsTo s u) : RunsTo s' u := by
  cases h with
  | last hstep hr => exact .last (hs.trans hstep) hr
  | more hstep hr hrest => exact .more (hs.trans hstep) hr hrest

/-- Settles O51, by induction on the run that suspends: its steps do the same with the input appended, until the
suspending step, which has changed only the status. -/
theorem resumedRunEqualsRunWithInputFromTheStart : Obligations.ResumedRunEqualsRunWithInputFromTheStart := by
  intro s t u v h ht hu
  induction h with
  | @last s t hstep _ =>
    have hl : s.status.live = true := live_of_step hstep (by rw [ht]; rfl)
    obtain ⟨-, -, rfl⟩ := step_suspended hstep ht
    have hresume : step (s.suspend.pushIn v) = step (s.pushIn v) := step_withStatus (s := s.pushIn v) hl rfl
    exact hu.of_step_eq hresume.symm
  | more hstep hr hrest ih =>
    have hprompt := (RunsTo.more hstep hr hrest).not_interactive ht
    exact .more (step_pushIn hprompt hstep hr v) hr (ih ht hu)

end Sys2Proof.Machine

/-! ## Proofs of the control-flow family (43_control_flow.md)

The two jumps differ only in when they are taken, so what a jump does when neither parameter faults is said once, for
every condition `taken`: taken, not taken, and taken to a negative target. -/

namespace Sys2Proof.Machine

/-- When neither parameter faults, only a taken jump to a negative target does (R112, D6). -/
theorem State.jumpFault_of_reads {s : State} {m1 m2 : Mode} (h1 : s.readFault 1 m1 = none)
    (h2 : s.readFault 2 m2 = none) (taken : Int → Bool) :
    s.jumpFault taken m1 m2 =
      if taken (s.operandValue 1 m1) && decide (s.operandValue 2 m2 < 0) then
        some (.negativeAddress (s.operandValue 2 m2)) else none := by
  rw [State.jumpFault, h1, h2, Option.none_or, Option.none_or]

/-- A completed jump as claims state it: `ip` is `target`, memory may be longer, and nothing else changes. -/
def State.JumpsTo (s t : State) (m1 m2 : Mode) (target : Nat) : Prop :=
  t = { s with mem := t.mem, ip := target, status := .running } ∧
  OnlyExtends s t.mem (max (s.reach 1 m1) (s.reach 2 m2))

theorem State.afterJump_jumpsTo (s : State) (taken : Int → Bool) (m1 m2 : Mode) :
    s.JumpsTo (s.afterJump taken m1 m2) m1 m2
      (if taken (s.operandValue 1 m1) then (s.operandValue 2 m2).toNat else s.ip + 3) :=
  ⟨rfl, rfl, fun _ => rfl⟩

/-- In state `s`, instruction `i` is the jump taken when `taken` holds of its condition. -/
structure IsJump (i : Instr) (s : State) (taken : Int → Bool) (m1 m2 : Mode) : Prop where
  firstFault_eq : firstFault i s = s.jumpFault taken m1 m2
  after_eq : s.after i = s.afterJump taken m1 m2

theorem isJump_jumpIfTrue (s : State) (m1 m2 : Mode) :
    IsJump (.jumpIfTrue m1 m2) s (fun c => decide (c ≠ 0)) m1 m2 := ⟨rfl, rfl⟩

theorem isJump_jumpIfFalse (s : State) (m1 m2 : Mode) :
    IsJump (.jumpIfFalse m1 m2) s (fun c => decide (c = 0)) m1 m2 := ⟨rfl, rfl⟩

section Jump

variable {i : Instr} {s : State} {taken : Int → Bool} {m1 m2 : Mode} (hj : IsJump i s taken m1 m2)
  (h1 : s.readFault 1 m1 = none) (h2 : s.readFault 2 m2 = none)

include hj h1 h2

theorem exec_jump_negative (ht : taken (s.operandValue 1 m1) = true) (hneg : s.operandValue 2 m2 < 0) :
    ∃ t, exec i s = .next t ∧ FailedWith s t (.negativeAddress (s.operandValue 2 m2)) := by
  have hraise : firstFault i s = some (.negativeAddress (s.operandValue 2 m2)) := by
    simp [hj.firstFault_eq, State.jumpFault_of_reads h1 h2, ht, hneg]
  exact ⟨_, exec_of_fault hraise, s.raise_failedWith _⟩

theorem exec_jump_taken (ht : taken (s.operandValue 1 m1) = true) (hnonneg : 0 ≤ s.operandValue 2 m2) :
    ∃ t, exec i s = .next t ∧ s.JumpsTo t m1 m2 (s.operandValue 2 m2).toNat := by
  have hnone : firstFault i s = none := by
    simp [hj.firstFault_eq, State.jumpFault_of_reads h1 h2, ht, hnonneg]
  refine ⟨s.after i, exec_of_noFault hnone, ?_⟩
  simpa [hj.after_eq, ht] using s.afterJump_jumpsTo taken m1 m2

theorem exec_jump_not_taken (ht : taken (s.operandValue 1 m1) = false) :
    ∃ t, exec i s = .next t ∧ s.JumpsTo t m1 m2 (s.ip + 3) := by
  have hnone : firstFault i s = none := by
    simp [hj.firstFault_eq, State.jumpFault_of_reads h1 h2, ht]
  refine ⟨s.after i, exec_of_noFault hnone, ?_⟩
  simpa [hj.after_eq, ht] using s.afterJump_jumpsTo taken m1 m2

end Jump

/-- Settles O25: JumpIfTrue is the jump taken when its condition is not zero. -/
theorem jumpIfTrueFollowsItsCondition : Obligations.JumpIfTrueFollowsItsCondition := by
  intro s m1 m2 h1 h2
  have hj := isJump_jumpIfTrue s m1 m2
  exact ⟨fun hc hnonneg => exec_jump_taken hj h1 h2 (decide_eq_true hc) hnonneg,
    fun hc => exec_jump_not_taken hj h1 h2 (decide_eq_false (not_not_intro hc))⟩

/-- Settles O26: JumpIfFalse is the jump taken when its condition is zero. -/
theorem jumpIfFalseFollowsItsCondition : Obligations.JumpIfFalseFollowsItsCondition := by
  intro s m1 m2 h1 h2
  have hj := isJump_jumpIfFalse s m1 m2
  exact ⟨fun hc hnonneg => exec_jump_taken hj h1 h2 (decide_eq_true hc) hnonneg,
    fun hc => exec_jump_not_taken hj h1 h2 (decide_eq_false hc)⟩

/-- Settles O27: both jumps raise the fault of a taken jump to a negative target. -/
theorem negativeJumpTargetFails : Obligations.NegativeJumpTargetFails := by
  intro s m1 m2 h1 h2 hneg
  exact ⟨fun hc => exec_jump_negative (isJump_jumpIfTrue s m1 m2) h1 h2 (decide_eq_true hc) hneg,
    fun hc => exec_jump_negative (isJump_jumpIfFalse s m1 m2) h1 h2 (decide_eq_true hc) hneg⟩

end Sys2Proof.Machine

/-! ## Proofs of the comparison family (44_comparison.md)

A comparison leaves `State.afterBinary` of its truth word (R122), 1 or 0, so what it stores, and where, is
`State.afterBinary_storesAndAdvances` of the arithmetic family. -/

namespace Sys2Proof.Machine

/-- Settles O19: LessThan is the binary instruction whose result is the truth word of `a < b` (R120). -/
theorem lessThanStoresItsTruth : Obligations.LessThanStoresItsTruth :=
  fun s m1 m2 m3 _ hwf hn hd =>
    ⟨s.after (.lessThan m1 m2 m3), exec_of_noFault hn,
      State.afterBinary_storesAndAdvances (fun a b => if a < b then 1 else 0) hwf hn hd⟩

/-- Settles O20: Equals is the binary instruction whose result is the truth word of `a = b` (R121). -/
theorem equalsStoresItsTruth : Obligations.EqualsStoresItsTruth :=
  fun s m1 m2 m3 _ hwf hn hd =>
    ⟨s.after (.equals m1 m2 m3), exec_of_noFault hn,
      State.afterBinary_storesAndAdvances (fun a b => if a = b then 1 else 0) hwf hn hd⟩

end Sys2Proof.Machine

/-! ## Proofs of the base-adjustment family (45_base_adjustment.md)

The relative base enters an instruction through `State.operandAddress` alone, and there in Relative mode only (R131);
so nothing that is read off the state before the instruction changes with it when no parameter is Relative. -/

namespace Sys2Proof.Machine

/-- Settles O28: without a fault an adjustment only extends memory and moves the base. -/
theorem adjustRelativeBaseAddsItsOperand : Obligations.AdjustRelativeBaseAddsItsOperand :=
  fun s m1 hr => ⟨s.after (.adjustRelativeBase m1), exec_of_noFault hr, rfl, rfl, fun _ => rfl⟩

/-! ### A parameter that is not Relative does not see the base (R39, R131) -/

section NotRelative

variable (s : State) (r : Int) (k : Nat) {m : Mode} (hm : m ≠ .relative)

include hm

theorem State.operandAddress_withRb : ({ s with rb := r } : State).operandAddress k m = s.operandAddress k m := by
  cases m with
  | relative => exact absurd rfl hm
  | position | immediate | illegal => rfl

theorem State.operandValue_withRb : ({ s with rb := r } : State).operandValue k m = s.operandValue k m := by
  rw [State.operandValue, State.operandAddress_withRb s r k hm]
  rfl

theorem State.reach_withRb : ({ s with rb := r } : State).reach k m = s.reach k m := by
  rw [State.reach, State.operandAddress_withRb s r k hm]
  rfl

theorem State.cellFault_withRb : ({ s with rb := r } : State).cellFault k m = s.cellFault k m := by
  rw [State.cellFault, State.operandAddress_withRb s r k hm]
  rfl

theorem State.readFault_withRb : ({ s with rb := r } : State).readFault k m = s.readFault k m := by
  rw [State.readFault, State.cellFault_withRb s r k hm]
  rfl

end NotRelative

/-! ### Nor do the shared instruction bodies -/

section SharedBodies

variable (s : State) (r : Int) {m1 m2 m3 : Mode} (h1 : m1 ≠ .relative) (h2 : m2 ≠ .relative) (h3 : m3 ≠ .relative)

include h1 h2 in
theorem State.jumpFault_withRb (taken : Int → Bool) :
    ({ s with rb := r } : State).jumpFault taken m1 m2 = s.jumpFault taken m1 m2 := by
  rw [State.jumpFault, State.readFault_withRb s r 1 h1, State.readFault_withRb s r 2 h2,
    State.operandValue_withRb s r 1 h1, State.operandValue_withRb s r 2 h2]
  rfl

include h1 h2 in
theorem State.afterJump_withRb (taken : Int → Bool) :
    ({ s with rb := r } : State).afterJump taken m1 m2 = { s.afterJump taken m1 m2 with rb := r } := by
  rw [State.afterJump, State.reach_withRb s r 1 h1, State.reach_withRb s r 2 h2,
    State.operandValue_withRb s r 1 h1, State.operandValue_withRb s r 2 h2]
  rfl

include h1 h2 h3

theorem State.binaryFault_withRb :
    ({ s with rb := r } : State).binaryFault m1 m2 m3 = s.binaryFault m1 m2 m3 := by
  rw [State.binaryFault, State.readFault_withRb s r 1 h1, State.readFault_withRb s r 2 h2,
    State.cellFault_withRb s r 3 h3]
  rfl

theorem State.afterBinary_withRb (f : Int → Int → Int) :
    ({ s with rb := r } : State).afterBinary f m1 m2 m3 = { s.afterBinary f m1 m2 m3 with rb := r } := by
  rw [State.afterBinary, State.reachThree, State.reach_withRb s r 1 h1, State.reach_withRb s r 2 h2,
    State.operandValue_withRb s r 1 h1, State.operandValue_withRb s r 2 h2, State.operandAddress_withRb s r 3 h3]
  rfl

end SharedBodies

theorem State.afterInput_withRb (s : State) (r : Int) {m : Mode} (hm : m ≠ .relative) :
    ({ s with rb := r } : State).afterInput m = { s.afterInput m with rb := r } := by
  have haddr := State.operandAddress_withRb s r 1 hm
  rcases s.afterInput_cases m with ⟨v, rest, hq, ha⟩ | ⟨hq, hi, ha⟩ | ⟨hq, hi, ha⟩ <;> rw [ha]
  · rw [State.afterInput_of_cons (s := { s with rb := r }) hq, haddr]
    rfl
  · rw [State.afterInput_of_prompt (s := { s with rb := r }) hq hi, haddr]
    rfl
  · exact State.afterInput_of_waits (s := { s with rb := r }) (State.waits_iff.2 ⟨hq, hi⟩) m

/-! ### Nor does an instruction without a Relative parameter (R131) -/

theorem notRelative_one {p : ParamKind × Mode} (h : ∀ q ∈ [p], q.2 ≠ .relative) : p.2 ≠ .relative :=
  h p (.head _)

theorem notRelative_two {p1 p2 : ParamKind × Mode} (h : ∀ q ∈ [p1, p2], q.2 ≠ .relative) :
    p1.2 ≠ .relative ∧ p2.2 ≠ .relative :=
  ⟨h p1 (.head _), notRelative_one fun q hq => h q (.tail _ hq)⟩

theorem notRelative_three {p1 p2 p3 : ParamKind × Mode} (h : ∀ q ∈ [p1, p2, p3], q.2 ≠ .relative) :
    p1.2 ≠ .relative ∧ p2.2 ≠ .relative ∧ p3.2 ≠ .relative :=
  ⟨h p1 (.head _), notRelative_two fun q hq => h q (.tail _ hq)⟩

/-- The faults of an instruction without a Relative parameter do not depend on the base. -/
theorem firstFault_withRb (s : State) (r : Int) {i : Instr} (h : ∀ p ∈ i.params, p.2 ≠ .relative) :
    firstFault i { s with rb := r } = firstFault i s := by
  cases i with
  | add | multiply | lessThan | equals =>
    obtain ⟨h1, h2, h3⟩ := notRelative_three h
    exact s.binaryFault_withRb r h1 h2 h3
  | jumpIfTrue | jumpIfFalse =>
    obtain ⟨h1, h2⟩ := notRelative_two h
    rw [firstFault, s.jumpFault_withRb r h1 h2]
    rfl
  | input =>
    have hm := notRelative_one h
    rw [firstFault, State.cellFault_withRb s r 1 hm]
    rfl
  | output =>
    have hm := notRelative_one h
    rw [firstFault, State.readFault_withRb s r 1 hm]
    rfl
  | adjustRelativeBase => exact s.readFault_withRb r 1 (notRelative_one h)
  | halt => rfl

/-- An instruction without a Relative parameter that is no adjustment leaves the same state whatever the base, and
the base as it was (R13). -/
theorem State.after_withRb_of_ne_adjust (s : State) (r : Int) {i : Instr} (h : ∀ p ∈ i.params, p.2 ≠ .relative)
    (hi : ∀ m, i ≠ .adjustRelativeBase m) : ({ s with rb := r } : State).after i = { s.after i with rb := r } := by
  cases i with
  | add | multiply | lessThan | equals =>
    obtain ⟨h1, h2, h3⟩ := notRelative_three h
    rw [State.after, s.afterBinary_withRb r h1 h2 h3]
    rfl
  | jumpIfTrue | jumpIfFalse =>
    obtain ⟨h1, h2⟩ := notRelative_two h
    rw [State.after, s.afterJump_withRb r h1 h2]
    rfl
  | input => exact s.afterInput_withRb r (notRelative_one h)
  | output =>
    have hm := notRelative_one h
    rw [State.after, State.reach_withRb s r 1 hm, State.operandValue_withRb s r 1 hm]
    rfl
  | adjustRelativeBase m => exact absurd rfl (hi m)
  | halt => rfl

/-- An adjustment without a Relative parameter moves every base by the same amount. -/
theorem State.after_adjust_withRb (s : State) (r : Int) {m : Mode} (hm : m ≠ .relative) :
    ({ s with rb := r } : State).after (.adjustRelativeBase m) =
      { s.after (.adjustRelativeBase m) with rb := r + s.operandValue 1 m } := by
  rw [State.after, State.reach_withRb s r 1 hm, State.operandValue_withRb s r 1 hm]
  rfl

/-- What a faultless instruction without a Relative parameter leaves, from another base. -/
theorem State.after_withRb (s : State) (r : Int) {i : Instr} (h : ∀ p ∈ i.params, p.2 ≠ .relative) :
    ({ s with rb := r } : State).after i = { s.after i with rb := r + ((s.after i).rb - s.rb) } := by
  by_cases hadj : ∃ m, i = .adjustRelativeBase m
  · obtain ⟨m, rfl⟩ := hadj
    have hmoved : (s.after (.adjustRelativeBase m)).rb - s.rb = s.operandValue 1 m := add_sub_cancel_left _ _
    rw [hmoved, s.after_adjust_withRb r (notRelative_one h)]
  · have hi := not_exists.1 hadj
    rw [State.after_rb hi, Int.sub_self, Int.add_zero, s.after_withRb_of_ne_adjust r h hi]

/-- Settles O48: with another base the instruction meets the same fault, or leaves the same state but for the base. -/
theorem relativeBaseMattersOnlyInRelativeMode : Obligations.RelativeBaseMattersOnlyInRelativeMode := by
  intro i s t r hparams h
  have hfault := firstFault_withRb s r hparams
  rcases exec_cases h with ⟨e, he, rfl⟩ | ⟨hn, rfl⟩
  · rw [exec_of_fault (hfault.trans he), State.raise_rb, Int.sub_self, Int.add_zero]
    rfl
  · rw [exec_of_noFault (hfault.trans hn), s.after_withRb r hparams]

end Sys2Proof.Machine

/-! ## Proofs of the halt family (46_halt.md)

A step and RUN leave a Halted core as it is, so its host reaches nothing but the two queue ends (R136, D17): the
back of `inq` and the front of `outq`. That relation between two states is named, and `perform_keeps` carries it
through any sequence of transactions other than LOAD. -/

namespace Sys2Proof.Machine

/-- Settles O29: Halt meets no fault and leaves `State.halt`. -/
theorem haltChangesOnlyTheStatus : Obligations.HaltChangesOnlyTheStatus :=
  fun _ => exec_of_noFault (i := .halt) rfl

/-! ### STEP on a core that is not live, and beyond the end of memory -/

theorem step_of_not_live {s : State} (h : s.status.live = false) : step s = .next s := by
  simp [step_eq, h]

theorem perform_step {s t : State} (h : step s = .next t) : perform s .step = (t, .status t.status) := by
  rw [perform, h]

/-- The fetch beyond the end of memory faults and does not extend it (R72, D7). -/
theorem State.nextInstr_of_opcodeWord_none {s : State} (h : s.opcodeWord = none) :
    s.nextInstr = .error (.ranOffEnd s.ip) := by
  simp [State.nextInstr, State.fetch, h]

theorem step_beyond_end {s : State} (hl : s.status.live = true) (hend : s.mem.len ≤ s.ip) :
    step s = .next (s.raise (.ranOffEnd s.ip)) := by
  simp [step_eq, hl, State.nextInstr_of_opcodeWord_none (State.opcodeWord_eq_none.2 hend)]

/-! ### What the host does to the queues (R163, R164) -/

/-- `t` is `s` but for the queue ends the host reaches: words added at the back of `inq`, words gone from the front
of `outq`. -/
def State.QueueEndsOnly (s t : State) : Prop :=
  ∃ added outs, outs <:+ s.outq ∧ t = { s with inq := s.inq ++ added, outq := outs }

theorem State.QueueEndsOnly.refl (s : State) : s.QueueEndsOnly s :=
  ⟨[], s.outq, List.suffix_rfl, by rw [List.append_nil]⟩

theorem State.QueueEndsOnly.status {s t : State} (h : s.QueueEndsOnly t) : t.status = s.status := by
  obtain ⟨_, _, -, rfl⟩ := h
  rfl

theorem State.QueueEndsOnly.pushIn {s t : State} (h : s.QueueEndsOnly t) (v : Int) : s.QueueEndsOnly (t.pushIn v) := by
  obtain ⟨added, outs, hsuffix, rfl⟩ := h
  exact ⟨added ++ [v], outs, hsuffix, by rw [State.pushIn, List.append_assoc]⟩

theorem State.popOut_of_nil {s : State} (h : s.outq = []) : s.popOut = (none, s) := by
  simp [State.popOut, h]

theorem State.popOut_snd (s : State) : s.popOut.2 = { s with outq := s.outq.tail } := by
  cases h : s.outq with
  | nil => rw [State.popOut_of_nil h, List.tail_nil, ← h]
  | cons v rest => rw [State.popOut_of_cons h, List.tail_cons]

theorem State.QueueEndsOnly.popOut {s t : State} (h : s.QueueEndsOnly t) : s.QueueEndsOnly t.popOut.2 := by
  obtain ⟨added, outs, hsuffix, rfl⟩ := h
  exact ⟨added, outs.tail, (List.tail_suffix outs).trans hsuffix, State.popOut_snd _⟩

/-- On a core that is not live a transaction other than LOAD reaches the queue ends only. -/
theorem State.QueueEndsOnly.perform {s t : State} (hl : s.status.live = false) (h : s.QueueEndsOnly t) {x : Transaction}
    (hx : x.isLoad = false) : s.QueueEndsOnly (perform t x).1 := by
  refine perform_keeps (P := s.QueueEndsOnly) (fun _ v h => h.pushIn v) (fun _ h => h.popOut)
    (fun t u h hstep => ?_) h hx
  have hsame : step t = .next t := step_of_not_live (by rw [h.status, hl])
  exact Host.Outcome.next.inj (hsame.symm.trans hstep) ▸ h

/-- What every transaction of a kind keeps, a sequence of them keeps (R159). -/
theorem performAll_keeps {P : State → Prop} {xs : List Transaction}
    (hP : ∀ s, ∀ x ∈ xs, P s → P (perform s x).1) {s : State} (hs : P s) : P (performAll s xs).1 := by
  induction xs generalizing s with
  | nil => exact hs
  | cons x xs ih =>
    exact ih (fun t y hy => hP t y (List.mem_cons_of_mem x hy)) (hP s x List.mem_cons_self hs)

/-- Settles O52: a Halted core is not live, so STEP and RUN leave it and sequences reach its queue ends only. -/
theorem haltIsFinal : Obligations.HaltIsFinal := by
  have not_live {s : State} (h : s.status = .halted) : s.status.live = false := by rw [h]; rfl
  refine ⟨fun s fuel h => ⟨?_, ?_⟩, fun s xs h hxs => ?_,
    fun s hl hend => ⟨_, step_beyond_end hl hend, rfl⟩⟩
  · rw [perform_step (step_of_not_live (not_live h)), h]
  · rw [perform_run (State.run_of_not_live (not_live h) fuel), h]
  · exact performAll_keeps (P := s.QueueEndsOnly) (fun _ x hx ht => ht.perform (not_live h) (hxs x hx)) (.refl s)

end Sys2Proof.Machine

/-! ## Proofs of the exceptions family (60_exceptions.md)

Every fault is fault entry with the record of R150, so the claims about faults ask only which fault is met.
`FaultSource` says once what each fault of an instruction comes from; the host's transactions and the network are read
off `perform`, `activate` and `networkRound`. -/

namespace Sys2Proof.Machine

/-! ### Transactions keep the invariants (R25, R157) -/

/-- The invariants see the queues only through their limits. -/
theorem State.Inv.withQueues {s : State} (hs : s.Inv) {inq outq : List Int}
    (hin : admits s.cfg.inqLimit inq.length = true) (hout : admits s.cfg.outqLimit outq.length = true) :
    ({ s with inq := inq, outq := outq } : State).Inv where
  memCanonical := hs.memCanonical
  causeExactlyWhenFailed := hs.causeExactlyWhenFailed
  causeDescribesIp := hs.causeDescribesIp
  suspendedAtInput := hs.suspendedAtInput
  withinMemLimit := hs.withinMemLimit
  withinInqLimit := hin
  withinOutqLimit := hout

theorem State.Inv.pushIn {s : State} (hs : s.Inv) {v : Int}
    (hroom : admits s.cfg.inqLimit (s.inq.length + 1) = true) : (s.pushIn v).Inv :=
  hs.withQueues (by rwa [List.length_append]) hs.withinOutqLimit

theorem State.Inv.popOut {s : State} (hs : s.Inv) : s.popOut.2.Inv := by
  rw [State.popOut_snd]
  exact hs.withQueues hs.withinInqLimit (admits_mono (List.tail_suffix s.outq).length_le hs.withinOutqLimit)

/-- Settles O41: LOAD begins anew, PUSH_IN and POP_OUT touch the queues within their limits, and STEP and RUN keep what
every step keeps. -/
theorem transactionsKeepTheInvariants : Obligations.TransactionsKeepTheInvariants := by
  intro s x hs
  cases x with
  | load program b =>
    simp only [perform]
    split
    next hroom => exact State.inv_load b hroom
    next => exact hs
  | pushIn v =>
    simp only [perform]
    split
    next hroom => exact hs.pushIn hroom
    next => exact hs
  | popOut => exact hs.popOut
  | run fuel =>
    simp only [perform]
    split
    next t hrun => exact State.run_keeps stepKeepsTheInvariants hs hrun
    next => exact hs
  | step =>
    obtain ⟨t, ht⟩ := everyStepAnswersANextState.1 s
    rw [perform_step ht]
    exact stepKeepsTheInvariants s t hs ht
  | observe => exact hs

/-! ### Faults of fetch and dispatch (R142, R144) -/

theorem step_of_nextInstr_error {s : State} {e : Raised} (hl : s.status.live = true) (h : s.nextInstr = .error e) :
    step s = .next (s.raise e) := by
  simp [step, hl, h]

/-- A word with no opcode of the map is rejected under either setting of NEG_WORD_FAULTS (R142, D2). -/
theorem decodeFor_of_unknown (cfg : Config) {w : Int} (h : opcodeOf w ∉ knownOpcodes) :
    decodeFor cfg w = .error (.unknownOpcode (opcodeOf w)) := by
  obtain ⟨-, hunknown⟩ := onlyTheTenOpcodesDecode w
  simp [decodeFor, hunknown h]

/-- Settles O12: the dispatch faults, and fault entry changes the status and the record alone. -/
theorem unknownOpcodeFails : Obligations.UnknownOpcodeFails := by
  intro s w hl hw hunknown
  have hnext : s.nextInstr = .error (.unknownOpcode (opcodeOf w)) :=
    (State.nextInstr_of_opcodeWord hw).trans (decodeFor_of_unknown s.cfg hunknown)
  exact ⟨_, step_of_nextInstr_error hl hnext, s.raise_failedWith _, rfl, by rw [State.raise_cause, hw]⟩

/-- Settles O13: the fetch faults, and fault entry changes the status and the record alone. -/
theorem runningOffTheEndFails : Obligations.RunningOffTheEndFails := by
  intro s hl hend
  have hword : s.opcodeWord = none := State.opcodeWord_eq_none.2 hend
  exact ⟨_, step_beyond_end hl hend, s.raise_failedWith _, rfl, by rw [State.raise_cause, hword]⟩

/-! ### Limits (R149) -/

theorem admits_eq_false {l n : Nat} (h : l < n) : admits (some l) n = false :=
  decide_eq_false h.not_ge

theorem State.accessFault_of_exceeds {s : State} {a : Int} (ha : 0 ≤ a) (hend : s.mem.len ≤ a.toNat)
    (hlim : admits s.cfg.memLimit (a.toNat + 1) = false) : s.accessFault a = some (.resourceExhausted .memory) := by
  simp [State.accessFault, ha.not_gt, hend, hlim]

/-- Settles O16: each limit is tested where the growth would happen. -/
theorem limitsFaultInsteadOfWrapping : Obligations.LimitsFaultInsteadOfWrapping := by
  refine ⟨fun s a v l hl ha hend hover => ?_, fun s m1 l hl hfull hread => ?_, fun s v l hl hfull => ?_⟩
  · have hfault : s.accessFault a = some (.resourceExhausted .memory) :=
      State.accessFault_of_exceeds ha hend (hl ▸ admits_eq_false hover)
    exact ⟨by rw [State.memRead_eq, hfault], by rw [State.memWrite_eq, hfault]⟩
  · have hroom : admits s.cfg.outqLimit (s.outq.length + 1) = false :=
      hl ▸ admits_eq_false (Nat.lt_succ_of_le hfull)
    have hfault : firstFault (.output m1) s = some (.resourceExhausted .outputQueue) := by
      simp [firstFault, hread, hroom]
    exact ⟨_, exec_of_fault hfault, s.raise_failedWith _⟩
  · have hroom : admits s.cfg.inqLimit (s.inq.length + 1) = false :=
      hl ▸ admits_eq_false (Nat.lt_succ_of_le hfull)
    simp [perform, hroom]

/-! ### Which instructions fault (R150, R151) -/

/-- Settles O33: fault entry with the first fault. -/
theorem firstFaultIsTheOneReported : Obligations.FirstFaultIsTheOneReported :=
  fun _ s e h => ⟨_, exec_of_fault h, s.raise_failedWith e⟩

theorem opcode_eq_three {i : Instr} : i.opcode = 3 ↔ ∃ m, i = .input m := by
  cases i <;> simp [Instr.opcode]

/-- Settles O34: a faultless instruction ends as `State.after_ending` says. -/
theorem instructionsFailExactlyOnAFault : Obligations.InstructionsFailExactlyOnAFault := by
  intro i s t h
  obtain ⟨-, -, hfailed, -⟩ := exec_status h
  refine ⟨hfailed, fun hn => ?_⟩
  obtain rfl : t = s.after i := Host.Outcome.next.inj (h.symm.trans (exec_of_noFault hn))
  have hinput : i.opcode = 3 ∧ s.waits = true ↔ s.waits = true ∧ ∃ m, i = .input m := by
    rw [opcode_eq_three, and_comm]
  rcases s.after_ending i with ⟨rfl, ha⟩ | ⟨hwaits, ha⟩ | ⟨hhalt, hwaits, hr⟩
  · rw [ha, if_pos rfl, State.halt_status]
  · have hhalt : i ≠ .halt := by
      obtain ⟨-, m, rfl⟩ := hwaits
      nofun
    rw [ha, if_neg hhalt, if_pos (hinput.2 hwaits), State.suspend_status]
  · rw [hr, if_neg hhalt, if_neg (mt hinput.1 hwaits)]

/-! ### Where the fault of an instruction comes from (R140, R143, R145, R146, R149) -/

/-- What each fault of instruction `i` in state `s` comes from. -/
inductive FaultSource (i : Instr) (s : State) : Raised → Prop where
  /-- A negative address or jump target (R146). -/
  | negative (a : Int) : FaultSource i s (.negativeAddress a)
  /-- An access for which MEM_LIMIT does not admit the growth (R149). -/
  | memory {n : Nat} : admits s.cfg.memLimit n = false → FaultSource i s (.resourceExhausted .memory)
  /-- A push that OUTQ_LIMIT does not admit (R149). -/
  | outputQueue {n : Nat} : admits s.cfg.outqLimit n = false → FaultSource i s (.resourceExhausted .outputQueue)
  /-- A write parameter in Immediate mode (R143); parameters are numbered from 1. -/
  | writeMode {k : Nat} : i.params[k]? = some (.write, .immediate) → FaultSource i s (.invalidWriteMode (k + 1))
  /-- A parameter in an undefined mode (R145). -/
  | undefinedMode {k d : Nat} {kind : ParamKind} : i.params[k]? = some (kind, .illegal d) →
      FaultSource i s (.invalidMode (k + 1) d)

theorem forall_mem_or {α : Type} {P : α → Prop} {o p : Option α} (ho : ∀ e ∈ o, P e) (hp : ∀ e ∈ p, P e) :
    ∀ e ∈ o.or p, P e := by
  cases o with
  | none => exact hp
  | some _ => exact ho

section Sources

variable {i : Instr} (s : State)

theorem State.accessFault_source (a : Int) : ∀ e ∈ s.accessFault a, FaultSource i s e := by
  intro e he
  unfold State.accessFault at he
  split at he
  · cases he
    exact .negative a
  · split at he
    next hover =>
      cases he
      obtain ⟨-, hlim⟩ : s.mem.len ≤ a.toNat ∧ admits s.cfg.memLimit (a.toNat + 1) = false := by simpa using hover
      exact .memory hlim
    next => cases he

theorem State.cellFault_source (k : Nat) (m : Mode) : ∀ e ∈ s.cellFault k m, FaultSource i s e := by
  unfold State.cellFault
  split
  · exact s.accessFault_source _
  · nofun

theorem modeFault_source {k : Nat} {kind : ParamKind} {m : Mode} (hp : i.params[k]? = some (kind, m)) :
    ∀ e ∈ modeFault kind (k + 1) m, FaultSource i s e := by
  intro e he
  cases m with
  | illegal d =>
    obtain rfl : .invalidMode (k + 1) d = e := by cases kind <;> exact Option.some.inj he
    exact .undefinedMode hp
  | immediate =>
    cases kind with
    | read => cases he
    | write =>
      cases he
      exact .writeMode hp
  | position | relative => cases kind <;> cases he

theorem State.readFault_source {k : Nat} {m : Mode} (hp : i.params[k]? = some (.read, m)) :
    ∀ e ∈ s.readFault (k + 1) m, FaultSource i s e :=
  forall_mem_or (s.accessFault_source _) (forall_mem_or (modeFault_source s hp) (s.cellFault_source _ m))

theorem State.targetFault_source {k : Nat} {m : Mode} (hp : i.params[k]? = some (.write, m)) :
    ∀ e ∈ s.targetFault (k + 1) m, FaultSource i s e :=
  forall_mem_or (s.accessFault_source _) (modeFault_source s hp)

theorem State.binaryFault_source {m1 m2 m3 : Mode} (hp : i.params = [(.read, m1), (.read, m2), (.write, m3)]) :
    ∀ e ∈ s.binaryFault m1 m2 m3, FaultSource i s e :=
  forall_mem_or (s.readFault_source (k := 0) (by simp [hp])) (forall_mem_or (s.readFault_source (k := 1) (by simp [hp]))
    (forall_mem_or (s.targetFault_source (k := 2) (by simp [hp])) (s.cellFault_source 3 m3)))

theorem State.jumpFault_source {m1 m2 : Mode} (taken : Int → Bool) (hp : i.params = [(.read, m1), (.read, m2)]) :
    ∀ e ∈ s.jumpFault taken m1 m2, FaultSource i s e := by
  refine forall_mem_or (s.readFault_source (k := 0) (by simp [hp]))
    (forall_mem_or (s.readFault_source (k := 1) (by simp [hp])) ?_)
  split
  · rintro _ ⟨⟩
    exact .negative _
  · nofun

end Sources

/-- Every fault of an instruction has its source. -/
theorem firstFault_source (i : Instr) (s : State) : ∀ e ∈ firstFault i s, FaultSource i s e := by
  cases i with
  | add | multiply | lessThan | equals => exact s.binaryFault_source rfl
  | jumpIfTrue => exact s.jumpFault_source (fun c => decide (c ≠ 0)) rfl
  | jumpIfFalse => exact s.jumpFault_source (fun c => decide (c = 0)) rfl
  | input m1 =>
    simp only [firstFault]
    split
    · nofun
    · exact forall_mem_or (s.targetFault_source (k := 0) rfl) (s.cellFault_source 1 m1)
  | output m1 =>
    refine forall_mem_or (s.readFault_source (k := 0) rfl) ?_
    split
    next => nofun
    next hfull =>
      rintro _ ⟨⟩
      exact .outputQueue (Bool.eq_false_of_not_eq_true hfull)
  | adjustRelativeBase => exact s.readFault_source (k := 0) rfl
  | halt => nofun

/-- A record that an instruction leaves where there was none is that of its first fault. -/
theorem firstFault_of_cause {i : Instr} {s t : State} {c : Cause} (hs : s.cause = none) (h : exec i s = .next t)
    (ht : t.cause = some c) : firstFault i s = some c.what := by
  rcases exec_cases h with ⟨e, he, rfl⟩ | ⟨-, rfl⟩
  · cases ht
    exact he
  · rw [State.after_cause, hs] at ht
    cases ht

theorem faultSource_of_cause {i : Instr} {s t : State} {c : Cause} {e : Raised} (hs : s.cause = none)
    (h : exec i s = .next t) (ht : t.cause = some c) (hc : c.what = e) : FaultSource i s e :=
  hc ▸ firstFault_source i s _ (firstFault_of_cause hs h ht)

/-! ### Mode faults (R143, R145) -/

/-- Once its word is fetched, the mode of a parameter is the next thing that can fault (R151, point 4). -/
theorem State.readFault_of_modeFault {s : State} {k : Nat} {m : Mode} {e : Raised}
    (hword : s.accessFault (s.ip + k) = none) (hmode : modeFault .read k m = some e) : s.readFault k m = some e := by
  rw [State.readFault, hword, hmode, Option.none_or, Option.some_or]

theorem State.targetFault_of_modeFault {s : State} {k : Nat} {m : Mode} {e : Raised}
    (hword : s.accessFault (s.ip + k) = none) (hmode : modeFault .write k m = some e) :
    s.targetFault k m = some e := by
  rw [State.targetFault, hword, hmode, Option.none_or]

/-- Settles O35: the faulting parameter is the first to fault, and an InvalidWriteMode has a write parameter in
Immediate mode as its source. -/
theorem invalidWriteModeComesFromImmediateTargets : Obligations.InvalidWriteModeComesFromImmediateTargets := by
  refine ⟨fun i s m1 m2 hi h1 h2 hword => ?_, fun s hwaits hword => ?_, fun i s t c k hs h ht hc => ?_⟩
  · obtain ⟨hfault, -⟩ := State.after_eq_afterBinary hi s
    rw [State.binaryFault, h1, h2, State.targetFault_of_modeFault (m := .immediate) hword rfl] at hfault
    exact ⟨_, exec_of_fault hfault, s.raise_failedWith _⟩
  · have hfault := firstFault_input_of_not_waits hwaits .immediate
    rw [State.targetFault_of_modeFault (m := .immediate) hword rfl] at hfault
    exact ⟨_, exec_of_fault hfault, s.raise_failedWith _⟩
  · cases faultSource_of_cause hs h ht hc with
    | writeMode hp => exact ⟨Nat.le_add_left 1 _, hp⟩

theorem modeFault_eq_none {kind : ParamKind} {k : Nat} {m : Mode} :
    modeFault kind k m = none ↔ m.legalFor kind = true := by
  cases kind <;> cases m <;> simp [modeFault, Mode.legalFor]

theorem State.legalFor_of_readFault {s : State} {k : Nat} {m : Mode} (h : s.readFault k m = none) :
    m.legalFor .read = true := by
  obtain ⟨-, hmode, -⟩ := State.readFault_parts h
  exact modeFault_eq_none.1 hmode

theorem State.legalFor_of_targetFault {s : State} {k : Nat} {m : Mode} (h : s.targetFault k m = none) :
    m.legalFor .write = true := by
  obtain ⟨-, hmode⟩ := State.targetFault_parts h
  exact modeFault_eq_none.1 hmode

/-- An instruction that meets no fault, and is no Input that waits, has legal modes only. -/
theorem legal_of_noFault {i : Instr} {s : State} (hwaits : i.opcode = 3 → s.waits = false)
    (hn : firstFault i s = none) : i.legal = true := by
  cases i with
  | add | multiply | lessThan | equals =>
    obtain ⟨h1, h2, h3, -⟩ := State.binaryFault_parts hn
    simp [Instr.legal, Instr.params, State.legalFor_of_readFault h1, State.legalFor_of_readFault h2,
      State.legalFor_of_targetFault h3]
  | jumpIfTrue | jumpIfFalse =>
    simp only [firstFault, State.jumpFault, Option.or_eq_none_iff] at hn
    obtain ⟨h1, h2, -⟩ := hn
    simp [Instr.legal, Instr.params, State.legalFor_of_readFault h1, State.legalFor_of_readFault h2]
  | input =>
    rw [firstFault_input_of_not_waits (hwaits rfl), Option.or_eq_none_iff] at hn
    simp [Instr.legal, Instr.params, State.legalFor_of_targetFault hn.left]
  | output =>
    rw [firstFault, Option.or_eq_none_iff] at hn
    simp [Instr.legal, Instr.params, State.legalFor_of_readFault hn.left]
  | adjustRelativeBase => simp [Instr.legal, Instr.params, State.legalFor_of_readFault hn]
  | halt => rfl

theorem not_legal_of_undefinedMode {i : Instr} {kind : ParamKind} {d : Nat} (h : (kind, .illegal d) ∈ i.params) :
    i.legal ≠ true := by
  intro hlegal
  have hmode : (Mode.illegal d).legalFor kind = true := List.all_eq_true.1 hlegal _ h
  cases kind <;> cases hmode

/-- A first parameter in an undefined mode is the first fault, once its word is there to be fetched (D9). -/
theorem firstFault_of_undefined_head {i : Instr} {s : State} {kind : ParamKind} {d : Nat}
    (hhead : i.params.head? = some (kind, .illegal d)) (hwaits : i.opcode = 3 → s.waits = false)
    (hword : s.accessFault (s.ip + 1) = none) : firstFault i s = some (.invalidMode 1 d) := by
  have hread : s.readFault 1 (.illegal d) = some (.invalidMode 1 d) := State.readFault_of_modeFault hword rfl
  have htarget : s.targetFault 1 (.illegal d) = some (.invalidMode 1 d) := State.targetFault_of_modeFault hword rfl
  cases i with
  | add | multiply | lessThan | equals =>
    cases hhead
    rw [firstFault, State.binaryFault, hread, Option.some_or]
  | jumpIfTrue | jumpIfFalse =>
    cases hhead
    rw [firstFault, State.jumpFault, hread, Option.some_or]
  | input =>
    cases hhead
    rw [firstFault_input_of_not_waits (hwaits rfl), htarget, Option.some_or]
  | output =>
    cases hhead
    rw [firstFault, hread, Option.some_or]
  | adjustRelativeBase =>
    cases hhead
    exact hread
  | halt => cases hhead

/-- Settles O36: a faultless instruction has legal modes only, the first parameter faults first, and an InvalidMode has
a parameter with that mode as its source. -/
theorem undefinedModeFailsOnAParameterThatExists : Obligations.UndefinedModeFailsOnAParameterThatExists := by
  refine ⟨fun i s t kind d hp hwaits h => ?_, fun i s kind d hhead hwaits hword => ?_,
    fun i s t c k d hs h ht hc => ?_⟩
  · obtain ⟨-, -, hfailed, -⟩ := exec_status h
    exact hfailed.2 fun hn => not_legal_of_undefinedMode hp (legal_of_noFault hwaits hn)
  · exact ⟨_, exec_of_fault (firstFault_of_undefined_head hhead hwaits hword), s.raise_failedWith _⟩
  · cases faultSource_of_cause hs h ht hc with
    | undefinedMode hp => exact ⟨_, List.mem_of_getElem? hp⟩

/-! ### Faults of a step (R78, R150) -/

/-- A step that enters Failed is fault entry. -/
theorem step_failed {s t : State} (h : step s = .next t) (hs : s.status ≠ .failed) (ht : t.status = .failed) :
    ∃ e, t = s.raise e := by
  rcases step_cases h with ⟨-, rfl⟩ | ⟨-, e, -, rfl⟩ | ⟨-, i, -, hx⟩
  · exact absurd ht hs
  · exact ⟨e, rfl⟩
  · obtain ⟨-, -, hfailed, -⟩ := exec_status hx
    rcases exec_cases hx with ⟨e, -, rfl⟩ | ⟨hn, -⟩
    · exact ⟨e, rfl⟩
    · exact absurd hn (hfailed.1 ht)

/-- Settles O37: such a step is fault entry, which changes the status and the record alone. -/
theorem faultLeavesTheStateBeforeIt : Obligations.FaultLeavesTheStateBeforeIt := by
  intro s t h hs ht
  obtain ⟨e, rfl⟩ := step_failed h hs ht
  exact ⟨e, s.raise_failedWith e⟩

/-- The dispatch raises UnknownOpcode, or with STRICT_OPCODE_WORD InvalidMode (R142, D4). -/
theorem decodeFor_error_kind {cfg : Config} {w : Int} {e : Raised} (h : decodeFor cfg w = .error e) :
    e.kind = .unknownOpcode ∨ e.kind = .invalidMode := by
  unfold decodeFor at h
  split at h
  · cases h
    exact .inl rfl
  · split at h
    · cases h
      exact .inl rfl
    · split at h
      · split at h
        · cases h
          exact .inr rfl
        · cases h
      · cases h

/-- Neither fetch nor dispatch accesses memory under the limit (C2). -/
theorem State.nextInstr_ne_resourceExhausted {s : State} {e : Raised} (h : s.nextInstr = .error e) :
    e.kind ≠ .resourceExhausted := by
  cases hw : s.opcodeWord with
  | none =>
    rw [State.nextInstr_of_opcodeWord_none hw] at h
    cases h
    nofun
  | some w =>
    rw [State.nextInstr_of_opcodeWord hw] at h
    rcases decodeFor_error_kind h with hkind | hkind <;> rw [hkind] <;> nofun

/-- Without limits no fault of an instruction is ResourceExhausted (D1). -/
theorem FaultSource.ne_resourceExhausted {i : Instr} {s : State} {e : Raised} (h : FaultSource i s e)
    (hmem : s.cfg.memLimit = none) (houtq : s.cfg.outqLimit = none) : e.kind ≠ .resourceExhausted := by
  cases h with
  | memory hlim =>
    rw [hmem] at hlim
    cases hlim
  | outputQueue hlim =>
    rw [houtq] at hlim
    cases hlim
  | negative | writeMode | undefinedMode => nofun

/-- Settles O38: fetch and dispatch never raise it, and the fault of an instruction has its source. -/
theorem noExhaustionWithoutLimits : Obligations.NoExhaustionWithoutLimits := by
  intro s t c hmem houtq hs h ht
  rcases step_cases h with ⟨-, rfl⟩ | ⟨-, e, he, rfl⟩ | ⟨-, i, -, hx⟩
  · cases hs.symm.trans ht
  · cases ht
    exact State.nextInstr_ne_resourceExhausted he
  · exact (faultSource_of_cause hs hx ht rfl).ne_resourceExhausted hmem houtq

/-! ### The prompt source (R102, R173) -/

/-- On a core that does not prompt, no faultless instruction looks at the draw counter. -/
theorem State.after_withDrawn {s : State} (hi : s.interactive = false) (i : Instr) (n : Nat) :
    ({ s with drawn := n } : State).after i = { s.after i with drawn := n } := by
  cases i with
  | input m =>
    rcases s.afterInput_cases m with ⟨v, rest, hq, ha⟩ | ⟨-, hprompt, -⟩ | ⟨hq, -, ha⟩
    · rw [State.after, State.after, ha, State.afterInput_of_cons (s := { s with drawn := n }) hq]
      rfl
    · cases hi.symm.trans hprompt
    · rw [State.after, State.after, ha]
      exact State.afterInput_of_waits (s := { s with drawn := n }) (State.waits_iff.2 ⟨hq, hi⟩) m
  | _ => rfl

theorem exec_withDrawn {i : Instr} {s t : State} (hi : s.interactive = false) (h : exec i s = .next t) (n : Nat) :
    exec i { s with drawn := n } = .next { t with drawn := n } := by
  have hfault : firstFault i { s with drawn := n } = firstFault i s := rfl
  rcases exec_cases h with ⟨e, he, rfl⟩ | ⟨hn, rfl⟩
  · rw [exec_of_fault (hfault.trans he)]
    rfl
  · rw [exec_of_noFault (hfault.trans hn), State.after_withDrawn hi]

/-- Settles O56: fetch and dispatch do not look at the draw counter, and no instruction of such a core does. -/
theorem promptDoesNotMatterWhenNotInteractive : Obligations.PromptDoesNotMatterWhenNotInteractive := by
  intro s t n hi h
  have hnext : ({ s with drawn := n } : State).nextInstr = s.nextInstr := rfl
  rcases step_cases h with ⟨hl, rfl⟩ | ⟨hl, e, he, rfl⟩ | ⟨hl, i, hdispatch, hx⟩
  · exact step_of_not_live hl
  · exact step_of_nextInstr_error hl (hnext.trans he)
  · exact (step_of_nextInstr (s := { s with drawn := n }) hl (hnext.trans hdispatch)).trans (exec_withDrawn hi hx n)

/-! ### Activation of a core of a network (R166, R169, R170) -/

section Activation

variable {fuel i : Nat} {s t : State} {v : Int} (hrun : (s.pushIn v).run fuel = some t)

include hrun

theorem activate_of_failed (ht : t.status = .failed) : activate fuel i s v = .error (.coreFailed i t.cause) := by
  simp [activate, hrun, ht]

theorem activate_of_one_output {out : Int} (ht : t.status ≠ .failed) (hq : t.outq = [out]) :
    activate fuel i s v = .ok ({ t with outq := [] }, out) := by
  simp [activate, hrun, ht, State.takeOutputs, hq]

theorem activate_of_other_outputs (ht : t.status ≠ .failed) (hq : t.outq.length ≠ 1) :
    activate fuel i s v = .error (.unexpectedOutputCount i t.outq.length) := by
  simp only [activate, hrun, ht, if_false, State.takeOutputs]
  split
  next houts =>
    obtain ⟨hone, -⟩ := Prod.mk.inj houts
    exact absurd (by rw [hone]; rfl) hq
  next houts =>
    obtain ⟨rfl, -⟩ := Prod.mk.inj houts
    rfl

end Activation

/-- Settles O57, by the status and the output queue the run ends with. -/
theorem activationDemandsExactlyOneOutput : Obligations.ActivationDemandsExactlyOneOutput :=
  fun _ _ _ _ _ hrun =>
    ⟨activate_of_failed hrun, fun _ => activate_of_one_output hrun, activate_of_other_outputs hrun⟩

/-! ### One round of a network (R167, R168, R171) -/

/-- The turn of the core at the head of the list (D22): its state afterwards, the signal it leaves to the rest, and the
output it made. -/
inductive Turn (fuel i : Nat) (s : State) (v : Int) : State → Int → Option Int → Prop where
  /-- A Halted core is skipped. -/
  | skipped : s.status = .halted → Turn fuel i s v s v none
  /-- Any other is activated. -/
  | activated {t : State} {out : Int} : s.status ≠ .halted → activate fuel i s v = .ok (t, out) →
      Turn fuel i s v t out (some out)

section Round

variable {fuel i : Nat} {s t : State} {rest : List State} {v out : Int} {turnMade : Option Int}

theorem networkRound_of_activate_error {e : NetworkError} (hs : s.status ≠ .halted)
    (h : activate fuel i s v = .error e) : networkRound fuel i (s :: rest) v = .error e := by
  simp [networkRound, hs, h]

theorem Turn.round_error {e : NetworkError} (hturn : Turn fuel i s v t out turnMade)
    (h : networkRound fuel (i + 1) rest out = .error e) : networkRound fuel i (s :: rest) v = .error e := by
  cases hturn with
  | skipped hs => simp [networkRound, hs, h]
  | activated hs ha => simp [networkRound, hs, ha, h]

theorem Turn.round_ok {ts : List State} {w : Int} {made : Option Int} (hturn : Turn fuel i s v t out turnMade)
    (h : networkRound fuel (i + 1) rest out = .ok (ts, w, made)) :
    networkRound fuel i (s :: rest) v = .ok (t :: ts, w, if rest = [] then turnMade else made) := by
  cases hturn with
  | skipped hs => simp [networkRound, hs, h]
  | activated hs ha => simp [networkRound, hs, ha, h]

theorem exists_turn_of_round_ok {r : List State × Int × Option Int}
    (h : networkRound fuel i (s :: rest) v = .ok r) : ∃ t out turnMade, Turn fuel i s v t out turnMade := by
  by_cases hs : s.status = .halted
  · exact ⟨s, v, none, .skipped hs⟩
  · cases ha : activate fuel i s v with
    | error e => cases h.symm.trans (networkRound_of_activate_error hs ha)
    | ok r => exact ⟨r.1, r.2, some r.2, .activated hs ha⟩

/-- In a round that succeeds the cores after the head succeed too. -/
theorem Turn.rest_ok {after : List State} {w : Int} {made : Option Int} (hturn : Turn fuel i s v t out turnMade)
    (h : networkRound fuel i (s :: rest) v = .ok (after, w, made)) :
    ∃ ts restMade, networkRound fuel (i + 1) rest out = .ok (ts, w, restMade) ∧ after = t :: ts := by
  cases hrest : networkRound fuel (i + 1) rest out with
  | error e => cases h.symm.trans (hturn.round_error hrest)
  | ok r =>
    cases h.symm.trans (hturn.round_ok hrest)
    exact ⟨r.1, r.2.2, rfl, rfl⟩

end Round

/-- A round of Halted cores passes the signal through and makes no output. -/
theorem networkRound_of_all_halted (fuel : Nat) {cores : List State} (v : Int) (h : ∀ s ∈ cores, s.status = .halted)
    (i : Nat) : networkRound fuel i cores v = .ok (cores, v, none) := by
  induction cores generalizing i with
  | nil => rfl
  | cons s rest ih =>
    obtain ⟨hs, hrest⟩ := List.forall_mem_cons.1 h
    rw [(Turn.skipped hs).round_ok (ih hrest (i + 1)), ite_self]

/-- A round that succeeds keeps the cores in their order, and the Halted ones as they are. -/
theorem networkRound_keeps {fuel i : Nat} {cores after : List State} {v w : Int} {made : Option Int}
    (h : networkRound fuel i cores v = .ok (after, w, made)) :
    List.Forall₂ (fun s t => s.status = .halted → t = s) cores after := by
  induction cores generalizing i v after made with
  | nil =>
    cases h
    exact .nil
  | cons s rest ih =>
    obtain ⟨t, out, turnMade, hturn⟩ := exists_turn_of_round_ok h
    obtain ⟨ts, restMade, hrest, rfl⟩ := hturn.rest_ok h
    refine .cons (fun hs => ?_) (ih hrest)
    cases hturn with
    | skipped => rfl
    | activated hlive => exact absurd hs hlive

/-- Settles O58: a turn skips a Halted core and activates any other. -/
theorem haltedCoresPassTheSignalOn : Obligations.HaltedCoresPassTheSignalOn := by
  refine ⟨fun fuel i s rest v hs => ⟨fun e => (Turn.skipped hs).round_error, fun ts w made h => ?_⟩,
    fun fuel i s rest v hs => ⟨fun e => networkRound_of_activate_error hs, fun t out ha =>
      ⟨fun e => (Turn.activated hs ha).round_error, fun ts w made => (Turn.activated hs ha).round_ok⟩⟩,
    fun fuel i cores v h => networkRound_of_all_halted fuel v h i,
    fun fuel i cores after v w made h => ?_⟩
  · have hok := (Turn.skipped hs).round_ok h
    cases rest with
    | nil =>
      cases h
      exact hok
    | cons => exact hok
  · obtain ⟨hlen, hkeeps⟩ := List.forall₂_iff_get.1 (networkRound_keeps h)
    refine ⟨hlen.symm, fun k s hk hs => ?_⟩
    obtain ⟨hlt, rfl⟩ := List.getElem?_eq_some_iff.1 hk
    exact List.getElem?_eq_some_iff.2 ⟨hlen ▸ hlt, hkeeps k hlt (hlen ▸ hlt) hs⟩

/-! ### A waiting Input, and the queue ends (R147, R158, R163, R164) -/

/-- Settles O22: an Input that waits meets no fault and suspends. -/
theorem emptyInputOnlySuspends : Obligations.EmptyInputOnlySuspends := by
  intro s m1 hq hi
  have hwaits : s.waits = true := State.waits_iff.2 ⟨hq, hi⟩
  have hnone : firstFault (.input m1) s = none := by simp [firstFault, hwaits]
  exact (exec_of_noFault hnone).trans (congrArg _ (State.afterInput_of_waits hwaits m1))

/-- Settles O55: each transaction on its queue end, with `State.popOut` on the empty and the non-empty queue. -/
theorem hostTransactionsTouchOnlyTheirQueueEnds : Obligations.HostTransactionsTouchOnlyTheirQueueEnds := by
  intro s v w rest
  refine ⟨fun hroom => ?_, fun hq => ?_, fun hq => ?_, rfl⟩
  · rw [perform, if_pos hroom, State.pushIn]
  · rw [perform, State.popOut_of_nil hq]
  · rw [perform, State.popOut_of_cons hq]

end Sys2Proof.Machine

/-! ## Proofs of the strict decoder (D2, D4) and of the reset family (70_reset_and_hazards.md)

On the strict machine a word is accepted when it is non-negative and ends below the place after its last mode digit, and
the canonical word is what is left of a word below that place. LOAD is read off the laws of a run of stores. -/

namespace Sys2Proof

/-! ### Digits that no parameter uses (D4) -/

theorem lowestNonzeroDigit_eq_none : ∀ {fuel : Nat} (k : Nat) {q : Nat}, q ≤ fuel →
    (lowestNonzeroDigit fuel k q = none ↔ q = 0)
  | 0, k, q, hq => by simp [lowestNonzeroDigit, Nat.le_zero.1 hq]
  | fuel + 1, k, q, hq => by
    have ih := lowestNonzeroDigit_eq_none (k + 1) (by omega : q / 10 ≤ fuel)
    unfold lowestNonzeroDigit
    split
    next hzero => simp [hzero]
    next hpos =>
      split
      next hunits => rw [ih]; omega
      next => simp [hpos]

/-- STRICT_OPCODE_WORD has nothing to object to exactly when the word ends below the place after its last mode digit. -/
theorem surplusDigit_eq_none {i : Instr} {w : Int} :
    surplusDigit i w = none ↔ w < 10 ^ (2 + i.params.length) := by
  have hplace : (100 : Int) ≤ 10 ^ (2 + i.params.length) := by
    rw [pow_add]
    exact le_mul_of_one_le_right (by decide) (one_le_pow₀ (by decide))
  unfold surplusDigit
  split
  next hsmall => simp [hsmall.trans_le hplace]
  next hlarge =>
    rw [lowestNonzeroDigit_eq_none _ le_rfl, Int.toNat_eq_zero, ← Int.lt_add_one_iff, zero_add,
      Int.ediv_lt_iff_lt_mul (by omega), one_mul]

/-- The dispatch keeps the digits of the parameters the instruction has, and drops those above (R58). -/
theorem fields_word_of_select {f : Fields} {i : Instr} (hf : f.Decimal) (h : select f = .ok i) :
    i.fields.word = f.word % 10 ^ (2 + i.params.length) := by
  obtain ⟨op, m1, m2, m3⟩ := f
  obtain ⟨h0, h1, h2, h3⟩ := hf
  unfold select at h
  split at h <;> cases h <;>
    simp_all [Fields.word, Instr.fields, Instr.modeDigit, Instr.params, Instr.opcode, Mode.digit_ofDigit] <;> omega

theorem decodeFields_decimal (w : Int) : (decodeFields w).Decimal := by
  obtain ⟨h1, h2, h3⟩ := decodeFields_digits w
  exact ⟨decodeFields_opcode w ▸ opcodeOf_lt w, h1, h2, h3⟩

theorem Instr.params_length_le (i : Instr) : i.params.length ≤ 3 := by
  cases i <;> simp [Instr.params]

/-- The canonical word of the decoded instruction is what is left of the word below the place after its last mode
digit (R65). -/
theorem encodeWord_of_decodeWord {w : Int} {i : Instr} (hw : 0 ≤ w) (h : decodeWord w = .ok i) :
    encodeWord i = w % 10 ^ (2 + i.params.length) := by
  have hplace : (10 : Int) ^ (2 + i.params.length) ∣ 10 ^ 5 :=
    pow_dvd_pow 10 (Nat.add_le_add_left i.params_length_le 2)
  calc encodeWord i
    _ = i.fields.word := encodeWord_eq_word i
    _ = (decodeFields w).word % 10 ^ (2 + i.params.length) := fields_word_of_select (decodeFields_decimal w) h
    _ = w % 100000 % 10 ^ (2 + i.params.length) := by rw [word_decodeFields hw]
    _ = w % 10 ^ (2 + i.params.length) := Int.emod_emod_of_dvd w hplace

end Sys2Proof

namespace Sys2Proof.Machine

/-! ### The dispatch with both strict options (D2, D4) -/

theorem decodeFor_strict {cfg : Config} (hneg : cfg.negWordFaults = true) (hstrict : cfg.strictOpcodeWord = true)
    {w : Int} {i : Instr} :
    decodeFor cfg w = .ok i ↔ 0 ≤ w ∧ decodeWord w = .ok i ∧ surplusDigit i w = none := by
  rcases lt_or_ge w 0 with hw | hw
  · simp [decodeFor, hneg, hw]
  · cases hd : decodeWord w with
    | error r => simp [decodeFor, hd, hw.not_gt]
    | ok j =>
      have hanswer : decodeFor cfg w = .ok i ↔ surplusDigit j w = none ∧ j = i := by
        cases hs : surplusDigit j w <;> simp [decodeFor, hstrict, hd, hw.not_gt, hs]
      rw [hanswer, Except.ok.injEq]
      constructor
      · rintro ⟨hs, rfl⟩
        exact ⟨hw, rfl, hs⟩
      · rintro ⟨-, rfl, hs⟩
        exact ⟨hs, rfl⟩

/-- Settles O9: a word without surplus digits is its own remainder below their place, which is the canonical word. -/
theorem strictMachineAcceptsOnlyCanonicalWords : Obligations.StrictMachineAcceptsOnlyCanonicalWords := by
  intro cfg w i hneg hstrict
  rw [decodeFor_strict hneg hstrict, surplusDigit_eq_none]
  constructor
  · rintro ⟨hw, hd, hsmall⟩
    exact ⟨decodeWord_wellFormed hd, by rw [encodeWord_of_decodeWord hw hd, Int.emod_eq_of_lt hw hsmall]⟩
  · rintro ⟨hi, rfl⟩
    have hw : 0 ≤ encodeWord i := encodeWord_nonneg i
    have hd : decodeWord (encodeWord i) = .ok i := decodeOfEncodeIsIdentity i hi
    refine ⟨hw, hd, ?_⟩
    rw [encodeWord_of_decodeWord hw hd]
    exact Int.emod_lt_of_pos _ (by positivity)

/-! ### The memory of a program (R61, R180) -/

theorem Memory.len_ofProgram (program : Program) : (Memory.ofProgram program).len = program.length := by
  rw [Memory.ofProgram, Memory.len_store]
  cases program <;> simp [Memory.empty]

theorem Memory.get_ofProgram (program : Program) {a : Nat} (h : a < program.length) :
    (Memory.ofProgram program).get a = program[a] := by
  simp [Memory.ofProgram, Memory.get_store program 0 Memory.wf_empty, h]

/-- The host observes the program it loaded, and no other cell. -/
theorem Memory.toList_ofProgram (program : Program) : (Memory.ofProgram program).toList = program := by
  refine List.ext_getElem (by simp [Memory.toList, Memory.len_ofProgram]) fun a _ ha => ?_
  simp [Memory.toList, Memory.get_ofProgram program ha]

/-- Settles O54: an admitted LOAD answers `State.load`, whose memory is `Memory.ofProgram`. -/
theorem loadPlacesTheProgram : Obligations.LoadPlacesTheProgram := by
  intro s program b hroom
  exact ⟨s.load program b, by rw [perform, if_pos hroom], Memory.toList_ofProgram program,
    Memory.len_ofProgram program, Memory.wf_ofProgram program, rfl⟩

end Sys2Proof.Machine
